-- ==== Sys2Proof/Word.lean ====
section
/-! DEFINITION. The machine's word and address domains and the two enumerations every instruction is built from
(spec/00_scope.md R6, R7; spec/30_encoding.md R52, R54).

A Word is a signed integer of any size (R6, R7; D2: log 1): the type `Int`, and it is written `Int` throughout. It is no
bit vector: nothing in this machine has a width, and no value is ever shifted, masked or narrowed. A memory address is a
non-negative integer without upper bound (R6, R30; D3: log 3): the type `Nat`. An address not yet checked, `ip` and `rb`
are `Int`. -/

namespace Sys2Proof

/-- The three parameter modes (R1, R54). -/
inductive Mode where
  /-- mode digit 0: the parameter word is an address -/
  | position
  /-- mode digit 1: the parameter word is the value -/
  | immediate
  /-- mode digit 2: the parameter word is an offset from the relative base -/
  | relative
deriving DecidableEq, Repr

/-- The role of a parameter (R52): `value` is V, resolved to a Word; `address` is A, resolved to a destination. -/
inductive Role where
  | value
  | address
deriving DecidableEq, Repr

end Sys2Proof
end

