-- ==== Sys2Proof/Config.lean ====
section
/-! DEFINITION. What an implementation fixes and what the spec leaves open: the OPEN parameters of
spec/00_scope.md R6 with their default (none), and the one free value (spec/93_implementation_defined.md U4, U5). -/

namespace Sys2Proof

/-- The OPEN parameters of R6 and 93 section 2: `none` is the value the spec takes (unbounded). They reach the machine
only through `Sys2Proof.Machine.stepWithin`, `constructWithin` and `inspectMemWithin`; `step` is the machine of the defaults (log 22). -/
structure Config.Limits where
  /-- WORD_BITS: the width of a finite two's-complement Word -/
  wordBits : Option Nat
  /-- MEM_LIMIT: the largest address a finite memory holds -/
  memLimit : Option Nat
  /-- INQ_DEPTH: the capacity of the input queue -/
  inqDepth : Option Nat
  /-- OUT_DEPTH: the capacity of the output log -/
  outDepth : Option Nat
deriving DecidableEq, Repr

/-- The values the spec takes: every domain and capacity unbounded (R6). -/
def Config.Limits.unbounded : Config.Limits :=
  { wordBits := none, memLimit := none, inqDepth := none, outDepth := none }

/-- RESET_IP (R6, R27; D10: log 14). -/
def Config.resetIp : Int := 0

/-- RESET_RB (R6, R27; D10: log 14). -/
def Config.resetRb : Int := 0

/-- FREE VALUE (log 19): what output port number `port` of the Decoder carries for the word `raw` where R81 leaves it
unspecified (93 U4, U5). It has no body: nothing can be proved of it. -/
opaque Config.freePort (raw : Int) (port : Nat) : Nat

end Sys2Proof
end

