-- ==== Sys2Proof/Syntax.lean ====
section
/-! DEFINITION. The instructions: one constructor per row of spec/opcode_table.json, holding what the Decoder returns,
the modes of the parameters in order (spec/40_decoder.md R70, R74, R80). Parameter words are not part of the decoded
instruction: the Decoder does not see them (R70), each is read by the meaning at `ip + 1 + i` (R90; log 20). -/

namespace Sys2Proof

/-- The ten operations of R1 and R52, each with the modes of its parameters. -/
inductive Instr where
  /-- ADD, opcode 1 (R110): V V A -/
  | add (m0 m1 m2 : Mode)
  /-- MUL, opcode 2 (R111): V V A -/
  | multiply (m0 m1 m2 : Mode)
  /-- IN, opcode 3 (R115): A -/
  | input (m0 : Mode)
  /-- OUT, opcode 4 (R116): V -/
  | output (m0 : Mode)
  /-- JNZ, opcode 5 (R120; the number: D11, log 15): V V -/
  | jumpIfTrue (m0 m1 : Mode)
  /-- JZ, opcode 6 (R121): V V -/
  | jumpIfFalse (m0 m1 : Mode)
  /-- LT, opcode 7 (R125; the number: D11, log 15): V V A -/
  | lessThan (m0 m1 m2 : Mode)
  /-- EQ, opcode 8 (R126): V V A -/
  | equals (m0 m1 m2 : Mode)
  /-- ARB, opcode 9 (R130): V -/
  | adjustRelativeBase (m0 : Mode)
  /-- HLT, the whole word 99 (R133, R58): no parameter -/
  | halt
deriving DecidableEq, Repr

/-- The parameters in declared order, each with its role and its mode (R52, R53). -/
def Instr.params : Instr → List (Role × Mode)
  | .add m0 m1 m2 => [(.value, m0), (.value, m1), (.address, m2)]
  | .multiply m0 m1 m2 => [(.value, m0), (.value, m1), (.address, m2)]
  | .input m0 => [(.address, m0)]
  | .output m0 => [(.value, m0)]
  | .jumpIfTrue m0 m1 => [(.value, m0), (.value, m1)]
  | .jumpIfFalse m0 m1 => [(.value, m0), (.value, m1)]
  | .lessThan m0 m1 m2 => [(.value, m0), (.value, m1), (.address, m2)]
  | .equals m0 m1 m2 => [(.value, m0), (.value, m1), (.address, m2)]
  | .adjustRelativeBase m0 => [(.value, m0)]
  | .halt => []

/-- The mode list the Decoder returns (R70). -/
def Instr.modes (i : Instr) : List Mode := i.params.map Prod.snd

/-- The parameter count `n` (R52, R74). -/
def Instr.paramCount : Instr → Nat
  | .add _ _ _ => 3
  | .multiply _ _ _ => 3
  | .input _ => 1
  | .output _ => 1
  | .jumpIfTrue _ _ => 2
  | .jumpIfFalse _ _ => 2
  | .lessThan _ _ _ => 3
  | .equals _ _ _ => 3
  | .adjustRelativeBase _ => 1
  | .halt => 0

/-- The value of `OP` that selects the operation (R52, R72); for Halt, the whole word (R58). -/
def Instr.opcode : Instr → Nat
  | .add _ _ _ => 1
  | .multiply _ _ _ => 2
  | .input _ => 3
  | .output _ => 4
  | .jumpIfTrue _ _ => 5
  | .jumpIfFalse _ _ => 6
  | .lessThan _ _ _ => 7
  | .equals _ _ _ => 8
  | .adjustRelativeBase _ => 9
  | .halt => 99

/-- The assembler's mnemonic (R61; D16: log 26). -/
def Instr.mnemonic : Instr → String
  | .add _ _ _ => "ADD"
  | .multiply _ _ _ => "MUL"
  | .input _ => "IN"
  | .output _ => "OUT"
  | .jumpIfTrue _ _ => "JNZ"
  | .jumpIfFalse _ _ => "JZ"
  | .lessThan _ _ _ => "LT"
  | .equals _ _ _ => "EQ"
  | .adjustRelativeBase _ => "ARB"
  | .halt => "HLT"

end Sys2Proof
end

