-- ==== Sys2Proof/WellFormed.lean ====
section
/-! DEFINITION. Which decoded instructions are legal: no address parameter has mode Immediate
(spec/30_encoding.md R54, R56 (d); spec/41_engine_cycle.md R89; D6: log 11). -/

namespace Sys2Proof

/-- Whether a parameter of this role may have this mode (R54). -/
def Mode.legalFor : Mode → Role → Bool
  | .immediate, .address => false
  | _, _ => true

/-- The write-mode legality check of R89 as a property of the decoded instruction. -/
def Instr.wellFormed (i : Instr) : Bool :=
  i.params.all fun p => p.2.legalFor p.1

end Sys2Proof
end

