-- ==== Sys2Proof/Decode.lean ====
section
/-! DEFINITION. The Instruction Decoder (spec/40_decoder.md R70 to R79), the encoder written from the tables of
spec/30_encoding.md R51 to R54, and the port-level rendering of the Decoder (R81). -/

namespace Sys2Proof

/-- Why the Decoder fails. The spec's `Fail` carries nothing (R70) and the Engine raises InvalidInstruction for each of
the three alike (R87); the names are R76's three conditions, in the order of R71. -/
inductive DecodeFailure where
  /-- the word is negative (R77; D4: log 9) -/
  | negativeWord
  /-- the word is not 99 and its opcode field is none of 1 to 9 (R76, R56 (b)) -/
  | unknownOpcode
  /-- an examined mode digit is 3 to 9 (R76, R56 (c)) -/
  | badModeDigit
deriving DecidableEq, Repr

/-- Decimal digit `k` of `v`, digit 0 the units (R7). -/
def digit (k v : Nat) : Nat := v / 10 ^ k % 10

/-- The mode a mode digit selects (R54, R75). -/
def modeOfDigit : Nat → Except DecodeFailure Mode
  | 0 => .ok .position
  | 1 => .ok .immediate
  | 2 => .ok .relative
  | _ => .error .badModeDigit

/-- The mode of parameter `i`: decimal digit `i + 2` (R51, R75). -/
def modeAt (v i : Nat) : Except DecodeFailure Mode := modeOfDigit (digit (i + 2) v)

/-- Decode an operation with one parameter: only digit 2 is examined (R51, R57). -/
def decodeOne (op : Mode → Instr) (v : Nat) : Except DecodeFailure Instr := do
  let m0 ← modeAt v 0
  return op m0

/-- Decode an operation with two parameters: digits 2 and 3 are examined (R51, R57). -/
def decodeTwo (op : Mode → Mode → Instr) (v : Nat) : Except DecodeFailure Instr := do
  let m0 ← modeAt v 0
  let m1 ← modeAt v 1
  return op m0 m1

/-- Decode an operation with three parameters: digits 2, 3 and 4 are examined (R51, R57). -/
def decodeThree (op : Mode → Mode → Mode → Instr) (v : Nat) : Except DecodeFailure Instr := do
  let m0 ← modeAt v 0
  let m1 ← modeAt v 1
  let m2 ← modeAt v 2
  return op m0 m1 m2

/-- Steps 3 to 7 of R71: the opcode field selects the operation (R52, R72), whose modes are then read. -/
def decodeOperation (v : Nat) : Except DecodeFailure Instr :=
  match v % 100 with
  | 1 => decodeThree .add v
  | 2 => decodeThree .multiply v
  | 3 => decodeOne .input v
  | 4 => decodeOne .output v
  | 5 => decodeTwo .jumpIfTrue v
  | 6 => decodeTwo .jumpIfFalse v
  | 7 => decodeThree .lessThan v
  | 8 => decodeThree .equals v
  | 9 => decodeOne .adjustRelativeBase v
  | _ => .error .unknownOpcode

/-- The Decoder (R71): a pure function of one Word, the checks in the spec's order. -/
def decode (raw : Int) : Except DecodeFailure Instr :=
  if raw < 0 then .error .negativeWord
  else if raw = 99 then .ok .halt
  else decodeOperation raw.toNat

/-- The mode digit of a mode (R54). -/
def modeDigit : Mode → Nat
  | .position => 0
  | .immediate => 1
  | .relative => 2

/-- The number whose decimal digits are the mode digits, parameter 0 in the hundreds (R51). -/
def modeDigitsFrom (weight : Nat) : List Mode → Nat
  | [] => 0
  | m :: rest => weight * modeDigit m + modeDigitsFrom (weight * 10) rest

/-- The canonical opcode word (R60, R61): the opcode, the mode digits above it, every ignored digit 0. -/
def opcodeWord (i : Instr) : Nat := i.opcode + modeDigitsFrom 100 i.modes

/-- The canonical opcode word as it stands in a memory cell. -/
def encode (i : Instr) : Int := (opcodeWord i : Int)

/-- The instruction decoded from the bits of a table row: they are ONE number, the opcode word (spec/98_reader.md; the
machine's words have no width, so `nbits` bounds nothing), and the parameter words, zeros, are not the Decoder's
concern (log 27). -/
def decodeTableWord (_nbits w : Nat) : Option Instr :=
  match decode (w : Int) with
  | .ok i => some i
  | .error _ => none

/-- The suggested output ports of the Decoder block (R81; not normative, D17: log 19). -/
structure DecoderPorts where
  ok : Nat
  op : Nat
  nparams : Nat
  mode0 : Nat
  mode1 : Nat
  mode2 : Nat
deriving DecidableEq, Repr

/-- The code on port `op`: 1 to 9, and 10 for Halt (R81). -/
def portOp (i : Instr) : Nat :=
  match i with
  | .halt => 10
  | _ => i.opcode

/-- The digit on a mode port: that of parameter `k`, and a free value where the operation has no parameter `k`
(R81; 93 U5). -/
def portMode (raw : Int) (i : Instr) (k : Nat) : Nat :=
  match i.modes[k]? with
  | some m => modeDigit m
  | none => Config.freePort raw (k + 2)

/-- The Decoder's ports for the word `raw`: on a failure every output but `ok` is a free value (R81; 93 U4). -/
def decoderPorts (raw : Int) : DecoderPorts :=
  match decode raw with
  | .ok i =>
    { ok := 1, op := portOp i, nparams := i.paramCount,
      mode0 := portMode raw i 0, mode1 := portMode raw i 1, mode2 := portMode raw i 2 }
  | .error _ =>
    { ok := 0, op := Config.freePort raw 0, nparams := Config.freePort raw 1,
      mode0 := Config.freePort raw 2, mode1 := Config.freePort raw 3, mode2 := Config.freePort raw 4 }

end Sys2Proof
end

