-- ==== Sys2Proof/Machine/State.lean ====
section
/-! DEFINITION. The machine's state, all of it (spec/10_state.md R10), the reasons a step can stop, and the state right
after reset (R27). -/

namespace Sys2Proof.Machine

/-- The status field `run_state` (R16; D14: log 17). -/
inductive RunState where
  /-- constructed and not yet run (code 0) -/
  | ready
  /-- the fetch-execute loop is active (code 1) -/
  | running
  /-- a Halt was decoded, the only successful end (code 2) -/
  | halted
  /-- one of the three fatal faults occurred (code 3) -/
  | faulted
deriving DecidableEq, Repr

/-- The three fatal faults (R17, 60 R140); the spec's None is `Option.none` of this type. -/
inductive FaultCause where
  /-- code 1: the word fetched is an invalid instruction (60 R141) -/
  | invalidInstruction
  /-- code 2: an address about to be used is negative (60 R142) -/
  | invalidAddress
  /-- code 3: an Input found the queue empty (60 R143) -/
  | inputExhausted
deriving DecidableEq, Repr

/-- `mem` as data (R21): the written cells that are not 0, as (address, Word) pairs. An unlisted address reads 0 (R28).
The canonical form is `Memory.wf` of Machine/Ops.lean. A cell is one whole Word, so `Host.Cell` (a byte) is not its
type: the machine has no bytes (20 R30, R34; log 2). -/
abbrev Memory := List (Nat × Int)

/-- The architectural state (R10): exactly the tuple
`(mem, ip, rb, inq, out, run_state, fault_cause, fault_ip)`. -/
structure State where
  /-- `mem` (R21) -/
  mem : Memory
  /-- `ip`, the instruction pointer, any integer (R12) -/
  ip : Int
  /-- `rb`, the relative base, any integer (R15) -/
  rb : Int
  /-- `inq`, the input queue, front first (R22) -/
  inq : List Int
  /-- `out`, the output log, in emission order (R23) -/
  out : List Int
  /-- `run_state` (R16) -/
  runState : RunState
  /-- `fault_cause` (R17) -/
  faultCause : Option FaultCause
  /-- `fault_ip`, meaningful only while FAULTED (R18) -/
  faultIp : Int
deriving DecidableEq, Repr

/-- Why a step answers no state. -/
inductive Fault where
  /-- Raised by `step` in a FAULTED state, with its `fault_cause`: the run is over and is no successful end (60 R148).
  The fault itself was taken by the step before, as a next state (60 R147). Safe (log 8). -/
  | faulted (cause : Option FaultCause)
deriving DecidableEq, Repr

/-- Why the model gives a step no meaning. -/
inductive Refusal where
  /-- Raised by an arm of `exec` whose instruction has no meaning yet; no arm does. Safe. -/
  | notModelled (mnemonic : String)
  /-- Raised by `stepWithin` and `constructWithin` only, when WORD_BITS is set and a value leaves its range (93 U1).
  `step` never raises it. Safe. -/
  | wordRange
  /-- Raised by `stepWithin` and `constructWithin` only, when MEM_LIMIT is set and an address above it is used (93 U2).
  `step` never raises it. Safe. -/
  | memLimit
  /-- Raised by `constructWithin` only, when INQ_DEPTH is set and the input sequence is longer (93 section 2). Safe. -/
  | inputDepth
  /-- Raised by `stepWithin` only, when OUT_DEPTH is set and the output log would be longer (93 section 2). Safe. -/
  | outputDepth
deriving DecidableEq, Repr

/-- The outcome of a step or of a meaning. -/
abbrev Result := Host.Outcome State Fault Refusal

/-- The state right after reset, which is construction (70 R170), with the empty image and no inputs (log 4):
every cell reads 0, `ip` and `rb` are 0, the queues are empty, READY, no fault cause (R27). `faultIp` is 0: DESIGN
CHOICE, the spec leaves it unspecified (R18, R28; log 5). -/
def State.reset : State :=
  { mem := [], ip := Config.resetIp, rb := Config.resetRb, inq := [], out := [],
    runState := .ready, faultCause := none, faultIp := 0 }

end Sys2Proof.Machine
end

