-- ==== Sys2Proof/Machine/Ops.lean ====
section
/-! DEFINITION. The named operations over memory, the queues and the registers, taking a fault, and how a meaning ends
(spec/00_scope.md R8). -/

namespace Sys2Proof.Machine

/-- The canonical form of a memory: addresses strictly rising, no listed cell 0 (log 2). -/
def Memory.wf : Memory → Bool
  | [] => true
  | c :: rest => c.2 != 0 && rest.all (fun d => decide (c.1 < d.1)) && Memory.wf rest

/-- The Word at an address; an unlisted address reads 0 (10 R21, R28). -/
def Memory.read : Memory → Nat → Int
  | [], _ => 0
  | c :: rest, a => if c.1 = a then c.2 else Memory.read rest a

/-- The memory without a cell for `a`, so that `a` reads 0. -/
def Memory.erase (m : Memory) (a : Nat) : Memory := m.filter fun c => c.1 != a

/-- The memory with a cell put in its place by address. -/
def Memory.insert : Memory → Nat → Int → Memory
  | [], a, v => [(a, v)]
  | c :: rest, a, v => if a < c.1 then (a, v) :: c :: rest else c :: Memory.insert rest a v

/-- Write one cell; writing 0 leaves no entry (20 R32: a 0 written to an unwritten cell is no write). -/
def Memory.write (m : Memory) (a : Nat) (v : Int) : Memory :=
  if v = 0 then m.erase a else (m.erase a).insert a v

/-- Load a sequence of Words at consecutive addresses (70 R171). -/
def Memory.load (m : Memory) : Nat → List Int → Memory
  | _, [] => m
  | a, v :: rest => Memory.load (m.write a v) (a + 1) rest

/-- The one check an address meets: it must not be negative (20 R33, 41 R93). -/
def checkAddr (a : Int) : Except FaultCause Nat :=
  if a < 0 then .error .invalidAddress else .ok a.toNat

/-- `MemRead(a, 1)` (20 R31). -/
def memRead (s : State) (a : Int) : Except FaultCause Int := do
  let n ← checkAddr a
  return s.mem.read n

/-- The state with one cell written. -/
def setCell (s : State) (a : Nat) (v : Int) : State := { s with mem := s.mem.write a v }

/-- `MemWrite(a, 1, v)` (20 R32). A meaning writes through `setCell`, its address checked when it was resolved. -/
def memWrite (s : State) (a : Int) (v : Int) : Except FaultCause State := do
  let n ← checkAddr a
  return setCell s n v

/-- `ip <- target` (00 R8). -/
def setIp (s : State) (target : Int) : State := { s with ip := target }

/-- The next instruction pointer of an instruction with `n` parameters (41 R96, 10 R13). -/
def nextIp (s : State) (n : Nat) : Int := s.ip + 1 + n

/-- `ip <- next_ip` (41 R96). -/
def advance (s : State) (n : Nat) : State := setIp s (nextIp s n)

/-- `rb <- rb + a`, exact and never checked (46 R130). -/
def addToBase (s : State) (a : Int) : State := { s with rb := s.rb + a }

/-- `InPop()` (43 R117): the front item and the state without it; an empty queue is InputExhausted (43 R115). -/
def inPop (s : State) : Except FaultCause (Int × State) :=
  match s.inq with
  | [] => .error .inputExhausted
  | v :: rest => .ok (v, { s with inq := rest })

/-- `OutPush(v)`: append to the log, always possible (43 R118). -/
def outPush (s : State) (v : Int) : State := { s with out := s.out ++ [v] }

/-- `run_state <- HALTED` and nothing else (47 R133). -/
def haltRun (s : State) : State := { s with runState := .halted }

/-- The state a fault leaves (60 R147): the status, the cause and the `ip` of the faulting instruction are recorded,
everything else is as it was. -/
def faultedState (c : FaultCause) (s : State) : State :=
  { s with runState := .faulted, faultCause := some c, faultIp := s.ip }

/-- TAKING A FAULT, the one operation for every `raise F` (00 R8, 60 R147). There is no return from a fault: the machine
has no handler and no such instruction (60 R149). -/
def raise (c : FaultCause) (s : State) : Result := .next (faultedState c s)

/-- How a meaning ends (41 R97): it commits the state it computed, all at once, or, when a fault was raised on the way,
commits nothing and takes the fault in the state it started from. -/
def settle (s : State) (r : Except FaultCause State) : Result :=
  match r with
  | .ok t => .next t
  | .error c => raise c s

end Sys2Proof.Machine
end

