-- ==== Sys2Proof/Machine/Cycle.lean ====
section
/-! DEFINITION. What a step does around an instruction: the fetch (spec/41_engine_cycle.md R87), the host's call of
`run` (R98), the two terminal states, and placing an instruction where the next step fetches. -/

namespace Sys2Proof.Machine

/-- Fetch the Word at `ip` and decode it (R87): a negative `ip` is InvalidAddress, any failure of the Decoder is
InvalidInstruction. -/
def fetch (s : State) : Except FaultCause Instr := do
  let raw ← memRead s s.ip
  match decode raw with
  | .ok i => return i
  | .error _ => .error .invalidInstruction

/-- The host's call of `run` (R98, 70 R176, R177): READY becomes RUNNING; on any other Engine it changes nothing
(D20: log 7). -/
def beginRun (s : State) : State :=
  match s.runState with
  | .ready => { s with runState := .running }
  | .running => s
  | .halted => s
  | .faulted => s

/-- A step in READY is the host's call of `run` and nothing more (log 6). -/
def stepReady (s : State) : Result := .next (beginRun s)

/-- A step in HALTED changes nothing: the state is frozen (47 R134, 70 R177; log 7). -/
def stepHalted (s : State) : Result := .next s

/-- A step in FAULTED is the model's fault outcome: the run is over and did not end successfully (60 R148; log 8). -/
def stepFaulted (s : State) : Result := .fault (.faulted s.faultCause)

/-- The state with the opcode word `w` where the next step fetches, followed by three parameter words 0 (the longest
instruction is 4 Words, 30 R50), and RUNNING, so that the very next step fetches it (log 4). A negative `ip`, at which
there is no cell, becomes 0; a recorded fault cause is dropped, since only a FAULTED state has one (10 R17). -/
def placeWord (s : State) (w : Int) : State :=
  { s with mem := s.mem.load s.ip.toNat [w, 0, 0, 0], ip := (s.ip.toNat : Int),
           runState := .running, faultCause := none }

end Sys2Proof.Machine
end

