-- ==== Sys2Proof/Machine/Operands.lean ====
section
/-! DEFINITION. The address-mode resolver (spec/41_engine_cycle.md R89 to R94): every operand form of the machine. -/

namespace Sys2Proof.Machine

/-- The parameter word of parameter `i`: the Word at `ip + 1 + i` (R90). -/
def fetchParam (s : State) (i : Nat) : Except FaultCause Int := memRead s (s.ip + 1 + i)

/-- The address a Position or Relative parameter word forms, before the check (R91, R92); the relative base is the one
at the start of the instruction (R93). An Immediate parameter forms no address: its callers never ask. -/
def formAddress (s : State) (m : Mode) (w : Int) : Int :=
  match m with
  | .relative => s.rb + w
  | .position => w
  | .immediate => w

/-- `ResolveValue(mode, w)` for parameter `i`, its word read first (R90, R91). -/
def resolveValue (s : State) (i : Nat) (m : Mode) : Except FaultCause Int := do
  let w ← fetchParam s i
  match m with
  | .immediate => return w
  | .position => memRead s (formAddress s .position w)
  | .relative => memRead s (formAddress s .relative w)

/-- `ResolveAddress(mode, w)` for parameter `i`, its word read first (R90, R92); the cell it names is not read. The
Immediate case is never reached in an instruction (R89 comes first); it answers R89's fault. -/
def resolveAddress (s : State) (i : Nat) (m : Mode) : Except FaultCause Nat := do
  let w ← fetchParam s i
  match m with
  | .immediate => .error .invalidInstruction
  | .position => checkAddr (formAddress s .position w)
  | .relative => checkAddr (formAddress s .relative w)

/-- The write-mode legality check, made before any parameter is resolved (R89; D6: log 11). -/
def checkWriteMode (m : Mode) : Except FaultCause Unit :=
  if m.legalFor .address then .ok () else .error .invalidInstruction

end Sys2Proof.Machine
end

