-- ==== Sys2Proof/Machine/Arithmetic.lean ====
section
/-! DEFINITION. The arithmetic instructions Add and Multiply (spec/42_arithmetic.md), and the shape they share with the
comparisons: two values in, one Word to memory. -/

namespace Sys2Proof.Machine

/-- The shape of Add, Multiply, LessThan and Equals (R110, R111, R125, R126): the write-mode check, parameters 0, 1, 2
in order, then `op a b` to the destination and `ip + 4`. -/
def storeBinary (op : Int → Int → Int) (m0 m1 m2 : Mode) (s : State) : Except FaultCause State := do
  checkWriteMode m2
  let a ← resolveValue s 0 m0
  let b ← resolveValue s 1 m1
  let d ← resolveAddress s 2 m2
  return advance (setCell s d (op a b)) 3

/-- Add (R110): the exact sum (R112). -/
def execAdd (m0 m1 m2 : Mode) (s : State) : Result :=
  settle s (storeBinary (fun a b => a + b) m0 m1 m2 s)

/-- Multiply (R111): the exact product (R112). -/
def execMultiply (m0 m1 m2 : Mode) (s : State) : Result :=
  settle s (storeBinary (fun a b => a * b) m0 m1 m2 s)

end Sys2Proof.Machine
end

