-- ==== Sys2Proof/Machine/Flags.lean ====
section
/-! DEFINITION. The truth values. The machine has no flags (spec/10_state.md R14): a comparison's truth value is a Word
written to memory, and a jump tests a Word against zero. -/

namespace Sys2Proof.Machine

/-- The Word of a truth value: exactly 1 or exactly 0 (45 R127). -/
def truthWord (b : Bool) : Int := if b then 1 else 0

/-- The signed comparator's less-than (45 R125, R127). -/
def lessThanWord (a b : Int) : Int := truthWord (decide (a < b))

/-- The signed comparator's equality (45 R126, R127). -/
def equalsWord (a b : Int) : Int := truthWord (decide (a = b))

/-- The zero test of the jumps: any non-zero Word, negative ones included, is true (44 R120, R121). -/
def isNonZero (c : Int) : Bool := decide (c ≠ 0)

end Sys2Proof.Machine
end

