-- ==== Sys2Proof/Machine/Compare.lean ====
section
/-! DEFINITION. The comparison instructions (spec/45_compare.md). -/

namespace Sys2Proof.Machine

/-- LessThan (R125): 1 if parameter 0 is strictly less than parameter 1, else 0; always written. -/
def execLessThan (m0 m1 m2 : Mode) (s : State) : Result :=
  settle s (storeBinary lessThanWord m0 m1 m2 s)

/-- Equals (R126): 1 if the parameters are equal, else 0; always written. -/
def execEquals (m0 m1 m2 : Mode) (s : State) : Result :=
  settle s (storeBinary equalsWord m0 m1 m2 s)

end Sys2Proof.Machine
end

