-- ==== Sys2Proof/Machine/Halt.lean ====
section
/-! DEFINITION. The Halt instruction (spec/47_halt.md). -/

namespace Sys2Proof.Machine

/-- Halt (R133): the run ends; `ip` stays at the 99 and nothing else changes. -/
def execHalt (s : State) : Result := .next (haltRun s)

end Sys2Proof.Machine
end

