-- ==== Sys2Proof/Machine/InputOutput.lean ====
section
/-! DEFINITION. Input and Output (spec/43_input_output.md). -/

namespace Sys2Proof.Machine

/-- Input (R115): the write-mode check, the address, and only then the queue; pop the front into the destination. -/
def execInput (m0 : Mode) (s : State) : Result :=
  settle s do
    checkWriteMode m0
    let d ← resolveAddress s 0 m0
    let (v, t) ← inPop s
    return advance (setCell t d v) 1

/-- Output (R116): append the resolved value to the log. -/
def execOutput (m0 : Mode) (s : State) : Result :=
  settle s do
    let a ← resolveValue s 0 m0
    return advance (outPush s a) 1

end Sys2Proof.Machine
end

