-- ==== Sys2Proof/Machine/Jumps.lean ====
section
/-! DEFINITION. The control-transfer instructions (spec/44_jumps.md). -/

namespace Sys2Proof.Machine

/-- The shape of both jumps (R120, R121): both parameters are resolved whether or not the jump is taken (41 R94 (b));
the target is a value and is not checked (R122 (c); D9: log 13). -/
def jumpWhen (taken : Int → Bool) (m0 m1 : Mode) (s : State) : Except FaultCause State := do
  let c ← resolveValue s 0 m0
  let t ← resolveValue s 1 m1
  return if taken c then setIp s t else advance s 2

/-- JumpIfTrue (R120): taken when the condition is not 0. -/
def execJumpIfTrue (m0 m1 : Mode) (s : State) : Result :=
  settle s (jumpWhen isNonZero m0 m1 s)

/-- JumpIfFalse (R121): taken when the condition is 0. -/
def execJumpIfFalse (m0 m1 : Mode) (s : State) : Result :=
  settle s (jumpWhen (fun c => !isNonZero c) m0 m1 s)

end Sys2Proof.Machine
end

