-- ==== Sys2Proof/Machine/RelativeBase.lean ====
section
/-! DEFINITION. The relative-base instruction (spec/46_relative_base.md). -/

namespace Sys2Proof.Machine

/-- AdjustRelativeBase (R130, R131): add the resolved value, found with the old base, to `rb`; the new base is never
checked. -/
def execAdjustRelativeBase (m0 : Mode) (s : State) : Result :=
  settle s do
    let a ← resolveValue s 0 m0
    return advance (addToBase s a) 1

end Sys2Proof.Machine
end

