-- ==== Sys2Proof/Machine/Dispatch.lean ====
section
/-! DEFINITION. The dispatch of the ten operations (spec/41_engine_cycle.md R95): one arm per constructor. -/

namespace Sys2Proof.Machine

def exec (i : Instr) (s : State) : Host.Outcome State Fault Refusal :=
  match i with
  | .add m0 m1 m2 => Sys2Proof.Machine.execAdd m0 m1 m2 s
  | .multiply m0 m1 m2 => Sys2Proof.Machine.execMultiply m0 m1 m2 s
  | .input m0 => Sys2Proof.Machine.execInput m0 s
  | .output m0 => Sys2Proof.Machine.execOutput m0 s
  | .jumpIfTrue m0 m1 => Sys2Proof.Machine.execJumpIfTrue m0 m1 s
  | .jumpIfFalse m0 m1 => Sys2Proof.Machine.execJumpIfFalse m0 m1 s
  | .lessThan m0 m1 m2 => Sys2Proof.Machine.execLessThan m0 m1 m2 s
  | .equals m0 m1 m2 => Sys2Proof.Machine.execEquals m0 m1 m2 s
  | .adjustRelativeBase m0 => Sys2Proof.Machine.execAdjustRelativeBase m0 s
  | .halt => Sys2Proof.Machine.execHalt s

end Sys2Proof.Machine
end

