-- ==== Sys2Proof/Machine/Step.lean ====
section
/-! DEFINITION. One step of the machine (spec/41_engine_cycle.md R86). -/

namespace Sys2Proof.Machine

/-- One step. RUNNING: one instruction, as one atomic step (R86): fetch and decode, then the decoded instruction's
meaning, or the fault of the fetch. READY: the host's `run`. HALTED and FAULTED are terminal (10 R16). -/
def step (s : State) : Host.Outcome State Fault Refusal :=
  match s.runState with
  | .ready => stepReady s
  | .running =>
    match fetch s with
    | .ok i => exec i s
    | .error c => raise c s
  | .halted => stepHalted s
  | .faulted => stepFaulted s

/-- `s` with the opcode word `w` and parameter words 0 where `step` fetches next, RUNNING (log 4, log 27). -/
def State.withFetchWord (s : State) (_nbits w : Nat) : State := placeWord s (w : Int)

end Sys2Proof.Machine
end

