-- ==== Sys2Proof/Machine/Assembler.lean ====
section
/-! DEFINITION. The spec's own assembly notation (spec/30_encoding.md R61; D16: log 26): operands, lines, the Words a
line assembles to, and labels. It carries no authority beyond being a spelling of the words. -/

namespace Sys2Proof.Machine

/-- An operand of the notation over its number `k` (R61). -/
inductive AsmOperand (κ : Type) where
  /-- `[k]`: Position -/
  | cell (k : κ)
  /-- `#k`: Immediate -/
  | literal (k : κ)
  /-- `[rb+k]`: Relative -/
  | based (k : κ)
deriving DecidableEq, Repr

/-- The mode an operand is written in (R61). -/
def asmMode {κ : Type} : AsmOperand κ → Mode
  | .cell _ => .position
  | .literal _ => .immediate
  | .based _ => .relative

/-- The number of an operand: with a numeral, its parameter word (R61). -/
def asmWord {κ : Type} : AsmOperand κ → κ
  | .cell k => k
  | .literal k => k
  | .based k => k

/-- A line of the notation: a mnemonic with its operands, or `.word k` (R61). -/
inductive AsmLine (κ : Type) where
  | add (a b d : AsmOperand κ)
  | mul (a b d : AsmOperand κ)
  | inp (d : AsmOperand κ)
  | out (a : AsmOperand κ)
  | jnz (a t : AsmOperand κ)
  | jz (a t : AsmOperand κ)
  | lt (a b d : AsmOperand κ)
  | eq (a b d : AsmOperand κ)
  | arb (a : AsmOperand κ)
  | hlt
  | word (k : κ)
deriving DecidableEq, Repr

/-- The Words of an instruction: its opcode word, then its parameter words in operand order; an address operand written
`#k` is not allowed (R61). -/
def asmWords (i : Instr) (operands : List (AsmOperand Int)) : Option (List Int) :=
  if i.wellFormed then some (encode i :: operands.map asmWord) else none

/-- The Words a line assembles to (R61). -/
def assemble : AsmLine Int → Option (List Int)
  | .add a b d => asmWords (.add (asmMode a) (asmMode b) (asmMode d)) [a, b, d]
  | .mul a b d => asmWords (.multiply (asmMode a) (asmMode b) (asmMode d)) [a, b, d]
  | .inp d => asmWords (.input (asmMode d)) [d]
  | .out a => asmWords (.output (asmMode a)) [a]
  | .jnz a t => asmWords (.jumpIfTrue (asmMode a) (asmMode t)) [a, t]
  | .jz a t => asmWords (.jumpIfFalse (asmMode a) (asmMode t)) [a, t]
  | .lt a b d => asmWords (.lessThan (asmMode a) (asmMode b) (asmMode d)) [a, b, d]
  | .eq a b d => asmWords (.equals (asmMode a) (asmMode b) (asmMode d)) [a, b, d]
  | .arb a => asmWords (.adjustRelativeBase (asmMode a)) [a]
  | .hlt => asmWords .halt []
  | .word k => some [k]

/-- A number as a program writes it: a numeral, or a label's name (R61). -/
inductive AsmNumber where
  | numeral (k : Int)
  | named (name : String)
deriving DecidableEq, Repr

/-- One item of a program: a label `name:`, or a line (R61). -/
inductive AsmItem where
  | label (name : String)
  | line (l : AsmLine AsmNumber)
deriving DecidableEq, Repr

/-- How many Words a line takes (R52, R61). -/
def lineLength {κ : Type} : AsmLine κ → Nat
  | .add _ _ _ => 4
  | .mul _ _ _ => 4
  | .inp _ => 2
  | .out _ => 2
  | .jnz _ _ => 3
  | .jz _ _ => 3
  | .lt _ _ _ => 4
  | .eq _ _ _ => 4
  | .arb _ => 2
  | .hlt => 1
  | .word _ => 1

/-- The labels of a program placed from `addr` on, each with the address of the next Word (R61). -/
def labelTable : Nat → List AsmItem → List (String × Nat)
  | _, [] => []
  | addr, .label name :: rest => (name, addr) :: labelTable addr rest
  | addr, .line l :: rest => labelTable (addr + lineLength l) rest

/-- The integer a number stands for; a name no label has stands for none. -/
def numberValue (table : List (String × Nat)) : AsmNumber → Option Int
  | .numeral k => some k
  | .named name => (table.find? fun e => e.1 == name).map fun e => (e.2 : Int)

/-- An operand with its number resolved. -/
def resolveOperand (table : List (String × Nat)) : AsmOperand AsmNumber → Option (AsmOperand Int)
  | .cell k => (numberValue table k).map .cell
  | .literal k => (numberValue table k).map .literal
  | .based k => (numberValue table k).map .based

/-- A line with its numbers resolved. -/
def resolveLine (table : List (String × Nat)) : AsmLine AsmNumber → Option (AsmLine Int)
  | .add a b d => do return .add (← resolveOperand table a) (← resolveOperand table b) (← resolveOperand table d)
  | .mul a b d => do return .mul (← resolveOperand table a) (← resolveOperand table b) (← resolveOperand table d)
  | .inp d => do return .inp (← resolveOperand table d)
  | .out a => do return .out (← resolveOperand table a)
  | .jnz a t => do return .jnz (← resolveOperand table a) (← resolveOperand table t)
  | .jz a t => do return .jz (← resolveOperand table a) (← resolveOperand table t)
  | .lt a b d => do return .lt (← resolveOperand table a) (← resolveOperand table b) (← resolveOperand table d)
  | .eq a b d => do return .eq (← resolveOperand table a) (← resolveOperand table b) (← resolveOperand table d)
  | .arb a => do return .arb (← resolveOperand table a)
  | .hlt => some .hlt
  | .word k => do return .word (← numberValue table k)

/-- The Words of the lines of a program, in order. -/
def assembleItems (table : List (String × Nat)) : List AsmItem → Option (List Int)
  | [] => some []
  | .label _ :: rest => assembleItems table rest
  | .line l :: rest => do
    let resolved ← resolveLine table l
    let words ← assemble resolved
    let others ← assembleItems table rest
    return words ++ others

/-- The image a program assembles to, its first Word at address 0 (R61, 70 R171). A label given twice names no address,
so such a program assembles to nothing (log 26). -/
def assembleProgram (items : List AsmItem) : Option (List Int) :=
  let table := labelTable 0 items
  if (table.map Prod.fst).Nodup then assembleItems table items else none

end Sys2Proof.Machine
end

