-- ==== Sys2Proof/Machine/Accesses.lean ====
section
/-! DEFINITION. The memory accesses of one step, in order (spec/20_memory.md R36, R40 (b)), and the
values it forms on the way (spec/41_engine_cycle.md R86). The meanings do not use these lists, which say of them which
cells they touch and which values they form: Machine/Limits.lean holds them against MEM_LIMIT and WORD_BITS. -/

namespace Sys2Proof.Machine

/-- One access: one whole Word at one address (R36, R37). -/
inductive Access where
  | read (a : Int)
  | write (a : Int)
deriving DecidableEq, Repr

/-- The address of an access. -/
def accessAddr : Access → Int
  | .read a => a
  | .write a => a

/-- The accesses of the parameters from index `k` on, left to right, up to a fault (R36, 41 R94): each parameter word,
the cell a Position or Relative value names, and after all of them the one write `pending`, unless the instruction is an
Input that finds the queue empty. -/
def paramAccesses (s : State) (starved : Bool) : Nat → List (Role × Mode) → List Access → List Access
  | _, [], pending => if starved then [] else pending
  | k, (role, m) :: rest, pending =>
    let w := s.mem.read (s.ip + 1 + k).toNat
    let a := formAddress s m w
    .read (s.ip + 1 + k) ::
      match role, m with
      | .value, .immediate => paramAccesses s starved (k + 1) rest pending
      | .address, .immediate => []
      | .value, _ => if a < 0 then [] else .read a :: paramAccesses s starved (k + 1) rest pending
      | .address, _ => if a < 0 then [] else paramAccesses s starved (k + 1) rest (pending ++ [.write a])

/-- Whether the instruction is an Input that finds no element (43 R115). -/
def starvedInput (i : Instr) (s : State) : Bool :=
  match i with
  | .input _ => s.inq.isEmpty
  | .add _ _ _ => false
  | .multiply _ _ _ => false
  | .output _ => false
  | .jumpIfTrue _ _ => false
  | .jumpIfFalse _ _ => false
  | .lessThan _ _ _ => false
  | .equals _ _ _ => false
  | .adjustRelativeBase _ => false
  | .halt => false

/-- The accesses of a decoded instruction after its opcode word: none if its write mode is illegal (R89). -/
def instrAccesses (i : Instr) (s : State) : List Access :=
  if i.wellFormed then paramAccesses s (starvedInput i s) 0 i.params [] else []

/-- All accesses of the step of a RUNNING state, the fetch of the opcode word first. -/
def stepAccesses (s : State) : List Access :=
  if s.ip < 0 then []
  else
    .read s.ip ::
      match fetch s with
      | .ok i => instrAccesses i s
      | .error _ => []

/-- The values the parameters from index `k` on form, left to right: the address of each Position or Relative one, a
negative one last, since it faults (41 R93), an Immediate word forming none; and, once all are resolved, `next_ip`
(41 R86), whether or not the instruction then uses it. They are values of the step too (93 U1). -/
def paramFormed (s : State) : Nat → List (Role × Mode) → List Int
  | k, [] => [nextIp s k]
  | k, (_, m) :: rest =>
    let a := formAddress s m (s.mem.read (s.ip + 1 + k).toNat)
    match m with
    | .immediate => paramFormed s (k + 1) rest
    | .position => a :: if a < 0 then [] else paramFormed s (k + 1) rest
    | .relative => a :: if a < 0 then [] else paramFormed s (k + 1) rest

/-- The values a decoded instruction forms: none if its write mode is illegal (R89), and none for Halt, whose step ends
before stage 3 (41 R86, R88). -/
def instrFormed (i : Instr) (s : State) : List Int :=
  if i.wellFormed && !i.params.isEmpty then paramFormed s 0 i.params else []

/-- All addresses and instruction pointers the step of a RUNNING state forms after its fetch. -/
def stepFormed (s : State) : List Int :=
  match fetch s with
  | .ok i => instrFormed i s
  | .error _ => []

end Sys2Proof.Machine
end

