-- ==== Sys2Proof/Machine/HostOps.lean ====
section
/-! DEFINITION. The host's operations besides `run` (which is `beginRun` and then `step`): construct and inspect
(spec/70_reset_and_hazards.md R170 to R179), and the numeric codes of the status fields. -/

namespace Sys2Proof.Machine

/-- construct(image, inputs) (70 R170 to R172, 10 R27): image element `k` at address `k` (D19: log 25), the inputs
queued front first (D12: log 16), everything else as `State.reset`. Nothing is validated (30 R62). -/
def construct (image inputs : List Int) : State :=
  { State.reset with mem := Memory.load [] 0 image, inq := inputs }

/-- When the host may inspect: HALTED, and FAULTED by decision D15 (70 R175, R179; log 18). -/
def inspectable (s : State) : Bool :=
  match s.runState with
  | .ready => false
  | .running => false
  | .halted => true
  | .faulted => true

/-- Inspection of the output log (70 R179); `none` while the host has no such operation. -/
def inspectOut (s : State) : Option (List Int) := if inspectable s then some s.out else none

/-- Inspection of the contiguous range `lo .. hi` (70 R179): unwritten cells read 0, and a range that includes a
negative address is refused (D21: log 18). -/
def inspectMem (s : State) (lo hi : Int) : Option (List Int) :=
  if inspectable s && !(decide (lo < 0) && decide (lo ≤ hi)) then
    some ((List.range (hi + 1 - lo).toNat).map fun k => s.mem.read (lo.toNat + k))
  else none

/-- Inspection of the status fields (70 R175, R179): `run_state`, `fault_cause`, and `fault_ip` only while FAULTED
(10 R18: otherwise it must not be read). -/
def inspectStatus (s : State) : Option (RunState × Option FaultCause × Option Int) :=
  match s.runState with
  | .ready => none
  | .running => none
  | .halted => some (.halted, s.faultCause, none)
  | .faulted => some (.faulted, s.faultCause, some s.faultIp)

/-- The numeric code of `run_state` (10 R16; D14: log 17). -/
def runStateCode : RunState → Nat
  | .ready => 0
  | .running => 1
  | .halted => 2
  | .faulted => 3

/-- The numeric code of `fault_cause`, None being 0 (10 R17, 60 R140; D14: log 17). -/
def faultCauseCode : Option FaultCause → Nat
  | none => 0
  | some .invalidInstruction => 1
  | some .invalidAddress => 2
  | some .inputExhausted => 3

end Sys2Proof.Machine
end

