-- ==== Sys2Proof/Machine/Limits.lean ====
section
/-! DEFINITION. The machine with the OPEN parameters set (spec/00_scope.md R6; spec/93_implementation_defined.md U1, U2,
U13; spec/70_reset_and_hazards.md R185): reaching a limit is a refusal, never a fault, a wrap or a saturation. With every
parameter at its default it is `construct`, `step` and `inspectMem` (log 22). -/

namespace Sys2Proof.Machine

/-- The value lies in the range of a `WORD_BITS`-wide two's-complement Word (R6). -/
def wordFits (l : Config.Limits) (v : Int) : Bool :=
  match l.wordBits with
  | none => true
  | some n => decide (-(2 : Int) ^ (n - 1) ≤ v) && decide (v ≤ (2 : Int) ^ (n - 1) - 1)

/-- The address is not above `MEM_LIMIT` (R6). -/
def addrFits (l : Config.Limits) (a : Int) : Bool :=
  match l.memLimit with
  | none => true
  | some top => decide (a ≤ (top : Int))

/-- The length is within a capacity (R6). -/
def lengthFits (depth : Option Nat) (n : Nat) : Bool :=
  match depth with
  | none => true
  | some d => decide (n ≤ d)

/-- Every Word the state holds is in range (93 U1). -/
def stateFits (l : Config.Limits) (s : State) : Bool :=
  wordFits l s.ip && wordFits l s.rb && s.mem.all (fun c => wordFits l c.2) && s.inq.all (wordFits l) &&
    s.out.all (wordFits l)

/-- One step under limits: the step is refused that would use an address above MEM_LIMIT, form a value out of range
(an address it accesses, an address a parameter forms, `next_ip` even where it is discarded, or a Word it commits), or make the log longer than OUT_DEPTH. -/
def stepWithin (l : Config.Limits) (s : State) : Result :=
  match s.runState with
  | .ready => step s
  | .halted => step s
  | .faulted => step s
  | .running =>
    if (stepAccesses s).all (fun x => addrFits l (accessAddr x)) = false then .refused .memLimit
    else if (stepAccesses s).all (fun x => wordFits l (accessAddr x)) = false then .refused .wordRange
    else if (stepFormed s).all (wordFits l) = false then .refused .wordRange
    else
      match step s with
      | .next t =>
        if stateFits l t = false then .refused .wordRange
        else if lengthFits l.outDepth t.out.length = false then .refused .outputDepth
        else .next t
      | .fault r => .fault r
      | .refused r => .refused r

/-- Every address the image loads, `0 .. length - 1`, passes the check (70 R171). -/
def imageAddressesFit (fits : Int → Bool) (image : List Int) : Bool :=
  (List.range image.length).all fun k => fits (k : Int)

/-- construct under limits: refused for an image or inputs that do not fit (93 section 2); the addresses it loads are
held to MEM_LIMIT, and to WORD_BITS, an address being a Word too (00 R7). -/
def constructWithin (l : Config.Limits) (image inputs : List Int) : Result :=
  if imageAddressesFit (addrFits l) image = false then .refused .memLimit
  else if imageAddressesFit (wordFits l) image = false then .refused .wordRange
  else if lengthFits l.inqDepth inputs.length = false then .refused .inputDepth
  else if (image ++ inputs).all (wordFits l) = false then .refused .wordRange
  else .next (construct image inputs)

/-- The range `lo .. hi` holds no address above the limits. Its last address is the largest; an empty range has none. -/
def rangeFits (l : Config.Limits) (lo hi : Int) : Bool :=
  decide (hi < lo) || (addrFits l hi && wordFits l hi)

/-- Inspection of the range `lo .. hi` under limits: a range that includes an address above MEM_LIMIT, or one that is no
Word of WORD_BITS, is refused (70 R179, R185; 00 R6, R7), as one that includes a negative address is (D21). -/
def inspectMemWithin (l : Config.Limits) (s : State) (lo hi : Int) : Option (List Int) :=
  if rangeFits l lo hi then inspectMem s lo hi else none

end Sys2Proof.Machine
end

