-- ==== Sys2Proof/Machine/Phases.lean ====
section
/-! DEFINITION. The control state machine of spec/41_engine_cycle.md R100, phase by phase, with the working values of
spec/10_state.md R25, which are no part of `State`. It is informative (D22: log 23): `step` is the machine, and this
rendering is stated to agree with it. -/

namespace Sys2Proof.Machine

/-- The phases of R100. -/
inductive Phase where
  | ready
  | fetch
  | decode
  | param (i : Nat)
  | deref (i : Nat)
  | exec
  | commit
  | halt
  | fault (c : FaultCause)
deriving DecidableEq, Repr

/-- The engine between phases: the architectural state, the phase, and the working values (10 R25). -/
structure Sequencer where
  arch : State
  phase : Phase
  /-- the fetched opcode word -/
  raw : Int
  /-- the latched instruction; Halt until one is latched -/
  latched : Instr
  /-- the working pointer `wp` -/
  wp : Int
  /-- the address S_DEREF reads -/
  addr : Int
  /-- the resolved parameters `r_0 ..`, addresses included -/
  resolved : List Int
deriving DecidableEq, Repr

/-- The dispatch of R95 on resolved parameters: the state the operation commits, `nxt` being the next instruction
pointer. A parameter list of another length is none of an instruction's. -/
def dispatch (i : Instr) (r : List Int) (nxt : Int) (s : State) : State :=
  match i, r with
  | .add _ _ _, [a, b, d] => setIp (setCell s d.toNat (a + b)) nxt
  | .multiply _ _ _, [a, b, d] => setIp (setCell s d.toNat (a * b)) nxt
  | .input _, [d] =>
    match s.inq with
    | [] => s
    | v :: rest => setIp (setCell { s with inq := rest } d.toNat v) nxt
  | .output _, [a] => setIp (outPush s a) nxt
  | .jumpIfTrue _ _, [c, t] => setIp s (if isNonZero c then t else nxt)
  | .jumpIfFalse _ _, [c, t] => setIp s (if isNonZero c then nxt else t)
  | .lessThan _ _ _, [a, b, d] => setIp (setCell s d.toNat (lessThanWord a b)) nxt
  | .equals _ _ _, [a, b, d] => setIp (setCell s d.toNat (equalsWord a b)) nxt
  | .adjustRelativeBase _, [a] => setIp (addToBase s a) nxt
  | _, _ => s

/-- The phase after parameter `i` is resolved: the next parameter, or S_EXEC (R100). -/
def afterParam (q : Sequencer) (i : Nat) : Phase :=
  if i + 1 < q.latched.paramCount then .param (i + 1) else .exec

/-- One phase of R100. -/
def tick (q : Sequencer) : Sequencer :=
  match q.phase with
  | .ready => { q with arch := beginRun q.arch, phase := .fetch }
  | .fetch =>
    match memRead q.arch q.arch.ip with
    | .error c => { q with phase := .fault c }
    | .ok raw => { q with raw := raw, wp := q.arch.ip, phase := .decode }
  | .decode =>
    match decode q.raw with
    | .error _ => { q with phase := .fault .invalidInstruction }
    | .ok .halt => { q with latched := .halt, phase := .halt }
    | .ok i =>
      if i.wellFormed then { q with latched := i, wp := q.arch.ip + 1, resolved := [], phase := .param 0 }
      else { q with phase := .fault .invalidInstruction }
  | .param i =>
    match memRead q.arch q.wp, q.latched.params[i]? with
    | .ok w, some (_, .immediate) =>
      { q with wp := q.wp + 1, resolved := q.resolved ++ [w], phase := afterParam q i }
    | .ok w, some (role, m) =>
      let a := formAddress q.arch m w
      if a < 0 then { q with wp := q.wp + 1, phase := .fault .invalidAddress }
      else
        match role with
        | .value => { q with wp := q.wp + 1, addr := a, phase := .deref i }
        | .address => { q with wp := q.wp + 1, resolved := q.resolved ++ [a], phase := afterParam q i }
    | .error c, _ => { q with phase := .fault c }
    | .ok _, none => { q with phase := .exec }
  | .deref i =>
    match memRead q.arch q.addr with
    | .ok v => { q with resolved := q.resolved ++ [v], phase := afterParam q i }
    | .error c => { q with phase := .fault c }
  | .exec =>
    match q.latched, q.arch.inq with
    | .input _, [] => { q with phase := .fault .inputExhausted }
    | _, _ => { q with phase := .commit }
  | .commit => { q with arch := dispatch q.latched q.resolved q.wp q.arch, phase := .fetch }
  | .halt => { q with arch := haltRun q.arch }
  | .fault c => { q with arch := faultedState c q.arch }

/-- `k` phases. -/
def ticks : Nat → Sequencer → Sequencer
  | 0, q => q
  | k + 1, q => ticks k (tick q)

/-- The engine about to fetch, its working values empty (10 R25: created at the fetch). -/
def atFetch (s : State) : Sequencer :=
  { arch := s, phase := .fetch, raw := 0, latched := .halt, wp := 0, addr := 0, resolved := [] }

end Sys2Proof.Machine
end

