-- ==== Sys2Proof/Safety.lean ====
section
/-! DEFINITION. What counts as a completing instruction, a faulting one and a good state, in the terms claims use: the
spec's conditions on the state and the operands, written without the meanings that are judged by them
(spec/41_engine_cycle.md R89 to R94; spec/60_exceptions.md R141 to R147). -/

namespace Sys2Proof.Safety

open Sys2Proof.Machine

/-- The parameter word `w_i`: the Word at `ip + 1 + i` (R90). -/
def paramWord (s : State) (i : Nat) : Int := s.mem.read (s.ip + 1 + i).toNat

/-- The address a Position or Relative parameter names: `w`, or `rb + w` (R54). -/
def targetOf (s : State) (i : Nat) (m : Mode) : Int :=
  if m = .relative then s.rb + paramWord s i else paramWord s i

/-- The value of parameter `i` in mode `m` (R54, R91). -/
def valueOf (s : State) (i : Nat) (m : Mode) : Int :=
  if m = .immediate then paramWord s i else s.mem.read (targetOf s i m).toNat

/-- Parameter `i` in mode `m` names no negative address (R93); an Immediate one names none. -/
abbrev inRange (s : State) (i : Nat) (m : Mode) : Prop := m = .immediate ∨ 0 ≤ targetOf s i m

/-- Every parameter from index `i` on is in range (R93). -/
def allInRange (s : State) : Nat → List (Role × Mode) → Bool
  | _, [] => true
  | i, p :: rest => decide (inRange s i p.2) && allInRange s (i + 1) rest

/-- The instruction is an Input and the queue is empty (R143). -/
abbrev starved (i : Instr) (s : State) : Prop := i.opcode = 3 ∧ s.inq = []

/-- When an instruction completes with its own effect: no address parameter is Immediate (R89), no parameter names a
negative address (R93), and an Input finds an element (R143). -/
abbrev completes (i : Instr) (s : State) : Prop :=
  i.wellFormed = true ∧ allInRange s 0 i.params = true ∧ ¬ starved i s

/-- The Word at `ip`, `ip` being an address (R87). -/
def wordAtIp (s : State) : Int := s.mem.read s.ip.toNat

/-- `ip` is an address and the Word there decodes to `i` (R87). -/
abbrev fetches (s : State) (i : Instr) : Prop := 0 ≤ s.ip ∧ decode (wordAtIp s) = .ok i

/-- The outcome is a state in which the fault `c` was taken (R147). -/
def faultsWith (r : Result) (c : FaultCause) : Prop :=
  ∃ t, r = .next t ∧ t.runState = .faulted ∧ t.faultCause = some c

/-- The whole effect of taking the fault `c` in `s` (R147). -/
def afterFault (c : FaultCause) (s : State) : State :=
  { s with runState := .faulted, faultCause := some c, faultIp := s.ip }

/-- How many parameters the operation with this opcode number has (R52, R74). -/
def countOfCode (code : Int) : Nat :=
  if code = 1 ∨ code = 2 ∨ code = 7 ∨ code = 8 then 3
  else if code = 5 ∨ code = 6 then 2
  else if code = 3 ∨ code = 4 ∨ code = 9 then 1
  else 0

/-- A word the Decoder rejects, by its digits (R56 (a) to (c)). -/
def undecodable (v : Int) : Prop :=
  v < 0 ∨ (v ≠ 99 ∧ (v % 100 < 1 ∨ 9 < v % 100)) ∨
    ∃ k : Nat, k < countOfCode (v % 100) ∧ 3 ≤ v / 10 ^ (k + 2) % 10

/-- A word that gives mode Immediate to an address parameter, by its digits (R56 (d)). -/
def immediateDestination (v : Int) : Prop :=
  (countOfCode (v % 100) = 3 ∧ v / 10000 % 10 = 1) ∨ (v % 100 = 3 ∧ v / 100 % 10 = 1)

/-- The first fault a RUNNING step meets, in the fixed order of R146: (1) a negative `ip`, (2) the Decoder, (3) the
write-mode check, (4) a negative address, (5) an empty queue. -/
def firstFault (s : State) : Option FaultCause :=
  if s.ip < 0 then some .invalidAddress
  else
    match decode (wordAtIp s) with
    | .error _ => some .invalidInstruction
    | .ok i =>
      if i.wellFormed = false then some .invalidInstruction
      else if allInRange s 0 i.params = false then some .invalidAddress
      else if starved i s then some .inputExhausted
      else none

/-- The `ip` after an instruction that is not Halt and does not fault (10 R13). -/
def ipAfter (i : Instr) (s : State) : Int :=
  match i with
  | .jumpIfTrue m0 m1 => if valueOf s 0 m0 ≠ 0 then valueOf s 1 m1 else s.ip + 3
  | .jumpIfFalse m0 m1 => if valueOf s 0 m0 = 0 then valueOf s 1 m1 else s.ip + 3
  | .add _ _ _ => s.ip + 4
  | .multiply _ _ _ => s.ip + 4
  | .lessThan _ _ _ => s.ip + 4
  | .equals _ _ _ => s.ip + 4
  | .input _ => s.ip + 2
  | .output _ => s.ip + 2
  | .adjustRelativeBase _ => s.ip + 2
  | .halt => s.ip

/-- The invariant of every state of an Engine: memory in canonical form (log 2); `fault_cause` is not None exactly while
FAULTED (10 R17); `fault_ip = ip` while FAULTED (10 R18). -/
abbrev good (s : State) : Prop :=
  s.mem.wf = true ∧ (s.runState = .faulted ↔ s.faultCause ≠ none) ∧ (s.runState = .faulted → s.faultIp = s.ip)

end Sys2Proof.Safety
end

