-- ==== Sys2Proof/Certificates/Slice0/Obligations.lean ====
section
/-! DEFINITION. The statements for the provers. Where one rests on a decision the spec marks as its own (D<n>) or on a
choice of the model, its docstring names the log entry. -/

open Sys2Proof Sys2Proof.Machine Sys2Proof.Safety

/-! ### The Decoder and the encoding -/

/-- R82: the worked decodes (opcode words of five operations, and ten words that fail). -/
def Obligations.WorkedDecodesOfTheSpec : Prop :=
  decode 1002 = .ok (.multiply .position .immediate .position) ∧
  decode 109 = .ok (.adjustRelativeBase .immediate) ∧
  decode 204 = .ok (.output .relative) ∧
  decode 1008 = .ok (.equals .position .immediate .position) ∧
  decode 99 = .ok .halt ∧
  ∀ w ∈ [(0 : Int), 10, 98, 199, 1099, -1, -99, 301, 1901, 30001], ∃ f, decode w = .error f

/-- One word of each of the ten operations, written out digit by digit from R51, R52 and R54 (numbers 5 and 7: D11,
log 15). -/
def Obligations.OneWordOfEveryOperation : Prop :=
  decode 21201 = .ok (.add .relative .immediate .relative) ∧
  decode 1202 = .ok (.multiply .relative .immediate .position) ∧
  decode 203 = .ok (.input .relative) ∧
  decode 104 = .ok (.output .immediate) ∧
  decode 2105 = .ok (.jumpIfTrue .immediate .relative) ∧
  decode 1006 = .ok (.jumpIfFalse .position .immediate) ∧
  decode 20007 = .ok (.lessThan .position .position .relative) ∧
  decode 1108 = .ok (.equals .immediate .immediate .position) ∧
  decode 209 = .ok (.adjustRelativeBase .relative) ∧
  decode 99 = .ok .halt

/-- R58: Halt is the whole word 99 and has no mode digits and no parameters. -/
def Obligations.HaltIsTheWholeWord : Prop :=
  (∀ w : Int, decode w = .ok .halt ↔ w = 99) ∧ Instr.halt.modes = [] ∧ Instr.halt.paramCount = 0

/-- R74: the parameter count is fixed per operation and is the length of the mode list the Decoder returns. -/
def Obligations.ParameterCountIsFixed : Prop :=
  (∀ w i, decode w = .ok i → i.modes.length = i.paramCount) ∧
  (∀ m0 m1 m2, (Instr.add m0 m1 m2).paramCount = 3 ∧ (Instr.multiply m0 m1 m2).paramCount = 3 ∧
    (Instr.lessThan m0 m1 m2).paramCount = 3 ∧ (Instr.equals m0 m1 m2).paramCount = 3) ∧
  (∀ m0 m1, (Instr.jumpIfTrue m0 m1).paramCount = 2 ∧ (Instr.jumpIfFalse m0 m1).paramCount = 2) ∧
  (∀ m0, (Instr.input m0).paramCount = 1 ∧ (Instr.output m0).paramCount = 1 ∧
    (Instr.adjustRelativeBase m0).paramCount = 1) ∧
  Instr.halt.paramCount = 0

/-- Decoding the canonical opcode word of any instruction, every mode at every value, gives it back (R51, R52, R54, R60).
It holds of the words with an Immediate destination too: the Decoder accepts them (R76). -/
def Obligations.DecodeOfEncodeIsTheInstruction : Prop :=
  ∀ i : Instr, decode (encode i) = .ok i

/-- R57: digits above the last parameter's mode digit are ignored, and they never turn a word into Halt (the reading is
decision D5, log 10). -/
def Obligations.SurplusDigitsAreIgnored : Prop :=
  (∀ (i : Instr) (v : Int) (k : Nat), i ≠ .halt → decode v = .ok i →
    decode (v + k * 10 ^ (i.paramCount + 2)) = .ok i) ∧
  (∀ k : Nat, 0 < k → ∃ f, decode (99 + k * 100) = .error f)

/-- Exactly which words decode to which instruction: Halt is 99 alone; any other instruction is every non-negative word
whose digits up to its last mode digit are its canonical word's (R60, R78; negative words fail: D4, log 9). -/
def Obligations.WordsOfAnInstructionExactly : Prop :=
  ∀ (w : Int) (i : Instr), decode w = .ok i ↔
    (i = .halt ∧ w = 99) ∨ (i ≠ .halt ∧ 0 ≤ w ∧ w % 10 ^ (i.paramCount + 2) = encode i)

/-- R76: the Decoder fails exactly on a negative word (D4, log 9), on an opcode field that is none of 1 to 9 in a word
that is not 99, and on an examined mode digit of 3 to 9; an Immediate destination is no failure of the Decoder. -/
def Obligations.DecoderFailsExactly : Prop :=
  (∀ w : Int, (∃ f, decode w = .error f) ↔ undecodable w) ∧
  decode 10001 = .ok (.add .position .position .immediate) ∧
  decode 103 = .ok (.input .immediate)

/-- The canonical words the Engine executes: the 99 numbers R60 lists. -/
def Obligations.LegalWordsAreTheListed : Prop :=
  ∀ w : Int, (∃ i : Instr, i.wellFormed = true ∧ encode i = w) ↔
    w ∈ [(1 : Int), 101, 201, 1001, 1101, 1201, 2001, 2101, 2201, 20001, 20101, 20201, 21001, 21101, 21201, 22001,
        22101, 22201] ++
      [2, 102, 202, 1002, 1102, 1202, 2002, 2102, 2202, 20002, 20102, 20202, 21002, 21102, 21202, 22002, 22102,
        22202] ++
      [3, 203] ++ [4, 104, 204] ++
      [5, 105, 205, 1005, 1105, 1205, 2005, 2105, 2205] ++
      [6, 106, 206, 1006, 1106, 1206, 2006, 2106, 2206] ++
      [7, 107, 207, 1007, 1107, 1207, 2007, 2107, 2207, 20007, 20107, 20207, 21007, 21107, 21207, 22007, 22107,
        22207] ++
      [8, 108, 208, 1008, 1108, 1208, 2008, 2108, 2208, 20008, 20108, 20208, 21008, 21108, 21208, 22008, 22108,
        22208] ++
      [9, 109, 209] ++ [99]

/-- R81, the suggested ports (D17, log 19): what a decode fixes of them; the rest are free values. -/
def Obligations.DecoderPortsShowTheDecode : Prop :=
  ∀ raw : Int,
    (∀ i, decode raw = .ok i →
      (decoderPorts raw).ok = 1 ∧ (decoderPorts raw).op = (if i = .halt then 10 else i.opcode) ∧
      (decoderPorts raw).nparams = i.paramCount ∧
      (∀ m, i.modes[0]? = some m → (decoderPorts raw).mode0 = modeDigit m) ∧
      (∀ m, i.modes[1]? = some m → (decoderPorts raw).mode1 = modeDigit m) ∧
      (∀ m, i.modes[2]? = some m → (decoderPorts raw).mode2 = modeDigit m)) ∧
    (∀ f, decode raw = .error f → (decoderPorts raw).ok = 0)

/-- R61's table: the Words a line of the spec's notation assembles to (D16, log 26); an address operand may not be
Immediate. -/
def Obligations.AssembledWordsOfEveryLine : Prop :=
  ∀ a b d : AsmOperand Int,
    (asmMode d ≠ .immediate →
      assemble (.add a b d) = some [1 + 100 * (modeDigit (asmMode a) : Int) + 1000 * (modeDigit (asmMode b) : Int) +
        10000 * (modeDigit (asmMode d) : Int), asmWord a, asmWord b, asmWord d] ∧
      assemble (.mul a b d) = some [2 + 100 * (modeDigit (asmMode a) : Int) + 1000 * (modeDigit (asmMode b) : Int) +
        10000 * (modeDigit (asmMode d) : Int), asmWord a, asmWord b, asmWord d] ∧
      assemble (.lt a b d) = some [7 + 100 * (modeDigit (asmMode a) : Int) + 1000 * (modeDigit (asmMode b) : Int) +
        10000 * (modeDigit (asmMode d) : Int), asmWord a, asmWord b, asmWord d] ∧
      assemble (.eq a b d) = some [8 + 100 * (modeDigit (asmMode a) : Int) + 1000 * (modeDigit (asmMode b) : Int) +
        10000 * (modeDigit (asmMode d) : Int), asmWord a, asmWord b, asmWord d] ∧
      assemble (.inp d) = some [3 + 100 * (modeDigit (asmMode d) : Int), asmWord d]) ∧
    (asmMode d = .immediate →
      assemble (.add a b d) = none ∧ assemble (.mul a b d) = none ∧ assemble (.lt a b d) = none ∧
      assemble (.eq a b d) = none ∧ assemble (.inp d) = none) ∧
    assemble (.out a) = some [4 + 100 * (modeDigit (asmMode a) : Int), asmWord a] ∧
    assemble (.jnz a b) = some [5 + 100 * (modeDigit (asmMode a) : Int) + 1000 * (modeDigit (asmMode b) : Int), asmWord a, asmWord b] ∧
    assemble (.jz a b) = some [6 + 100 * (modeDigit (asmMode a) : Int) + 1000 * (modeDigit (asmMode b) : Int), asmWord a, asmWord b] ∧
    assemble (.arb a) = some [9 + 100 * (modeDigit (asmMode a) : Int), asmWord a] ∧
    assemble .hlt = some [99]

/-! ### Memory, reset and the host's operations -/

/-- R31: MemRead faults on a negative address and otherwise answers the Word most recently written there, by
construction (the image's, or 0) or by a write. -/
def Obligations.ReadsAnswerTheLatestWrite : Prop :=
  (∀ (s : State) (a : Int), a < 0 → memRead s a = .error .invalidAddress) ∧
  (∀ (image inputs : List Int) (a : Nat), memRead (construct image inputs) a = .ok (image.getD a 0)) ∧
  (∀ (s t : State) (a b : Int) (v : Int), memWrite s a v = .ok t → 0 ≤ b →
    memRead t b = if b = a then .ok v else memRead s b)

/-- R32: MemWrite faults on a negative address and otherwise writes that cell and changes nothing else; a write of 0 to
an unwritten cell is no write, and a write to an address that resolved never faults. -/
def Obligations.WritesChangeOneCell : Prop :=
  ∀ (s : State) (a v : Int),
    (a < 0 → memWrite s a v = .error .invalidAddress) ∧
    (0 ≤ a → ∃ t, memWrite s a v = .ok t ∧ t.mem.read a.toNat = v ∧
      (∀ b : Nat, (b : Int) ≠ a → t.mem.read b = s.mem.read b) ∧ t = { s with mem := t.mem }) ∧
    (0 ≤ a → s.mem.wf = true → s.mem.read a.toNat = 0 → memWrite s a 0 = .ok s) ∧
    (∀ (i : Nat) (m : Mode) (d : Nat), resolveAddress s i m = .ok d → ∃ t, memWrite s d v = .ok t)

/-- Two canonical memories that read alike at every address are the same data, so a state holds no trace of how it was
written (R21, R32; the representation is the model's, log 2). -/
def Obligations.CanonicalMemoryIsItsReads : Prop :=
  ∀ m m' : Memory, m.wf = true → m'.wf = true → (∀ a, m.read a = m'.read a) → m = m'

/-- R27, R170 to R173: what construction leaves (ip and rb 0: D10, log 14; the status fields: D14, log 17). Nothing is
said of fault_ip, whose value is the model's (log 5). -/
def Obligations.ConstructionLeaves : Prop :=
  ∀ image inputs : List Int,
    (∀ a : Nat, (construct image inputs).mem.read a = image.getD a 0) ∧
    (construct image inputs).ip = 0 ∧ (construct image inputs).rb = 0 ∧
    (construct image inputs).inq = inputs ∧ (construct image inputs).out = [] ∧
    (construct image inputs).runState = .ready ∧ (construct image inputs).faultCause = none

/-- Reset is the construction of an empty image and no inputs (log 4). -/
def Obligations.ResetIsEmptyConstruction : Prop :=
  State.reset = construct [] [] ∧ ∀ a : Nat, State.reset.mem.read a = 0

/-- R179: inspection of a stopped Engine answers the log and any range of non-negative addresses, unwritten cells
reading 0 (a FAULTED Engine too: D15; a negative address is refused: D21; log 18). -/
def Obligations.InspectionAnswersTheRange : Prop :=
  ∀ (s : State) (lo hi : Int), s.runState = .halted ∨ s.runState = .faulted →
    inspectOut s = some s.out ∧
    (0 ≤ lo → ∃ ws, inspectMem s lo hi = some ws ∧ ws.length = (hi + 1 - lo).toNat ∧
      ∀ k : Nat, k < ws.length → ws[k]? = some (s.mem.read (lo.toNat + k))) ∧
    (lo < 0 → lo ≤ hi → inspectMem s lo hi = none)

/-- R178: while READY or RUNNING the host has nothing to inspect (D23). -/
def Obligations.NoInspectionDuringARun : Prop :=
  ∀ (s : State) (lo hi : Int), s.runState = .ready ∨ s.runState = .running →
    inspectOut s = none ∧ inspectMem s lo hi = none ∧ inspectStatus s = none

/-! ### The resolver -/

/-- R91: what a value parameter yields in each of the three modes, after a fetch that succeeded (R90). -/
def Obligations.ValueResolution : Prop :=
  ∀ (s : State) (i : Nat), 0 ≤ s.ip → ∀ w, memRead s (s.ip + 1 + i) = .ok w →
    resolveValue s i .immediate = .ok w ∧
    resolveValue s i .position = (if w < 0 then .error .invalidAddress else memRead s w) ∧
    resolveValue s i .relative = (if s.rb + w < 0 then .error .invalidAddress else memRead s (s.rb + w))

/-- R92, R89: what an address parameter yields, the cell it names not being read; the Immediate mode never gets so far:
the write-mode check rejects it (D6, log 11). -/
def Obligations.AddressResolution : Prop :=
  ∀ (s : State) (i : Nat), 0 ≤ s.ip → ∀ w, memRead s (s.ip + 1 + i) = .ok w →
    resolveAddress s i .position = (if w < 0 then .error .invalidAddress else .ok w.toNat) ∧
    resolveAddress s i .relative = (if s.rb + w < 0 then .error .invalidAddress else .ok (s.rb + w).toNat) ∧
    checkWriteMode .immediate = .error .invalidInstruction ∧
    checkWriteMode .position = .ok () ∧ checkWriteMode .relative = .ok ()

/-! ### The ten instructions: where each completes and with what, and where it faults -/

/-- Add (R110, R112): completes with the exact sum at the destination and ip + 4; an Immediate destination is
InvalidInstruction before anything is resolved (D6, log 11), a negative address InvalidAddress. -/
def Obligations.AddWritesTheSum : Prop :=
  ∀ (m0 m1 m2 : Mode) (s : State), 0 ≤ s.ip →
    (completes (.add m0 m1 m2) s → exec (.add m0 m1 m2) s = .next { s with
      mem := s.mem.write (targetOf s 2 m2).toNat (valueOf s 0 m0 + valueOf s 1 m1), ip := s.ip + 4 }) ∧
    (m2 = .immediate → faultsWith (exec (.add m0 m1 m2) s) .invalidInstruction) ∧
    (m2 ≠ .immediate → ¬ (inRange s 0 m0 ∧ inRange s 1 m1 ∧ inRange s 2 m2) →
      faultsWith (exec (.add m0 m1 m2) s) .invalidAddress)

/-- Multiply (R111, R112): the exact product (D6: log 11). -/
def Obligations.MultiplyWritesTheProduct : Prop :=
  ∀ (m0 m1 m2 : Mode) (s : State), 0 ≤ s.ip →
    (completes (.multiply m0 m1 m2) s → exec (.multiply m0 m1 m2) s = .next { s with
      mem := s.mem.write (targetOf s 2 m2).toNat (valueOf s 0 m0 * valueOf s 1 m1), ip := s.ip + 4 }) ∧
    (m2 = .immediate → faultsWith (exec (.multiply m0 m1 m2) s) .invalidInstruction) ∧
    (m2 ≠ .immediate → ¬ (inRange s 0 m0 ∧ inRange s 1 m1 ∧ inRange s 2 m2) →
      faultsWith (exec (.multiply m0 m1 m2) s) .invalidAddress)

/-- LessThan (R125, R127): 1 if parameter 0 is less than parameter 1 in ℤ, else 0, always written (D6: log 11; the
opcode number 7: D11, log 15). -/
def Obligations.LessThanWritesTheTruthWord : Prop :=
  ∀ (m0 m1 m2 : Mode) (s : State), 0 ≤ s.ip →
    (completes (.lessThan m0 m1 m2) s → exec (.lessThan m0 m1 m2) s = .next { s with
      mem := s.mem.write (targetOf s 2 m2).toNat (if valueOf s 0 m0 < valueOf s 1 m1 then 1 else 0),
      ip := s.ip + 4 }) ∧
    (m2 = .immediate → faultsWith (exec (.lessThan m0 m1 m2) s) .invalidInstruction) ∧
    (m2 ≠ .immediate → ¬ (inRange s 0 m0 ∧ inRange s 1 m1 ∧ inRange s 2 m2) →
      faultsWith (exec (.lessThan m0 m1 m2) s) .invalidAddress)

/-- Equals (R126, R127): 1 if the parameters are equal, else 0, always written (D6: log 11). -/
def Obligations.EqualsWritesTheTruthWord : Prop :=
  ∀ (m0 m1 m2 : Mode) (s : State), 0 ≤ s.ip →
    (completes (.equals m0 m1 m2) s → exec (.equals m0 m1 m2) s = .next { s with
      mem := s.mem.write (targetOf s 2 m2).toNat (if valueOf s 0 m0 = valueOf s 1 m1 then 1 else 0),
      ip := s.ip + 4 }) ∧
    (m2 = .immediate → faultsWith (exec (.equals m0 m1 m2) s) .invalidInstruction) ∧
    (m2 ≠ .immediate → ¬ (inRange s 0 m0 ∧ inRange s 1 m1 ∧ inRange s 2 m2) →
      faultsWith (exec (.equals m0 m1 m2) s) .invalidAddress)

/-- Input (R115, R117): the front of the queue goes to the destination and leaves the queue, ip + 2; the faults in the
order of R115, the address before the queue (D6: log 11). -/
def Obligations.InputPopsIntoMemory : Prop :=
  ∀ (m0 : Mode) (s : State), 0 ≤ s.ip →
    (∀ v rest, s.inq = v :: rest → completes (.input m0) s → exec (.input m0) s = .next { s with
      mem := s.mem.write (targetOf s 0 m0).toNat v, inq := rest, ip := s.ip + 2 }) ∧
    (m0 = .immediate → faultsWith (exec (.input m0) s) .invalidInstruction) ∧
    (m0 ≠ .immediate → ¬ inRange s 0 m0 → faultsWith (exec (.input m0) s) .invalidAddress) ∧
    (m0 ≠ .immediate → inRange s 0 m0 → s.inq = [] → faultsWith (exec (.input m0) s) .inputExhausted)

/-- R116, Output: its encoding, its effect in every mode, its one fault. -/
def Obligations.OutputAppendsTheValue : Prop :=
  ∀ (m0 : Mode) (s : State), 0 ≤ s.ip →
    decode (4 + 100 * modeDigit m0) = .ok (.output m0) ∧
    (inRange s 0 m0 → exec (.output m0) s = .next { s with out := s.out ++ [valueOf s 0 m0], ip := s.ip + 2 }) ∧
    (¬ inRange s 0 m0 → faultsWith (exec (.output m0) s) .invalidAddress)

/-- JumpIfTrue (R120): both parameters resolved, then the target for a non-zero condition, else ip + 3 (the opcode number
5: D11, log 15). -/
def Obligations.JumpIfTrueJumpsOnNonZero : Prop :=
  ∀ (m0 m1 : Mode) (s : State), 0 ≤ s.ip →
    decode (5 + 100 * modeDigit m0 + 1000 * modeDigit m1) = .ok (.jumpIfTrue m0 m1) ∧
    (inRange s 0 m0 → inRange s 1 m1 → exec (.jumpIfTrue m0 m1) s =
      .next { s with ip := if valueOf s 0 m0 ≠ 0 then valueOf s 1 m1 else s.ip + 3 }) ∧
    (¬ (inRange s 0 m0 ∧ inRange s 1 m1) → faultsWith (exec (.jumpIfTrue m0 m1) s) .invalidAddress)

/-- R121, JumpIfFalse: its encoding, its effect, its fault; exactly one of the two jumps is taken for a given
condition (each taken jump going to the target, wherever that is not the fall-through address). -/
def Obligations.JumpIfFalseJumpsOnZero : Prop :=
  ∀ (m0 m1 : Mode) (s : State), 0 ≤ s.ip →
    decode (6 + 100 * modeDigit m0 + 1000 * modeDigit m1) = .ok (.jumpIfFalse m0 m1) ∧
    (inRange s 0 m0 → inRange s 1 m1 → exec (.jumpIfFalse m0 m1) s =
      .next { s with ip := if valueOf s 0 m0 = 0 then valueOf s 1 m1 else s.ip + 3 }) ∧
    (¬ (inRange s 0 m0 ∧ inRange s 1 m1) → faultsWith (exec (.jumpIfFalse m0 m1) s) .invalidAddress) ∧
    (∀ t f, exec (.jumpIfTrue m0 m1) s = .next t → exec (.jumpIfFalse m0 m1) s = .next f →
      inRange s 0 m0 → inRange s 1 m1 → valueOf s 1 m1 ≠ s.ip + 3 →
      (t.ip = valueOf s 1 m1 ↔ ¬ f.ip = valueOf s 1 m1))

/-- R130, AdjustRelativeBase: its encoding, the exact sum with the operand found by the old base, no check of the new
base, its one fault. -/
def Obligations.AdjustRelativeBaseAdds : Prop :=
  ∀ (m0 : Mode) (s : State), 0 ≤ s.ip →
    decode (9 + 100 * modeDigit m0) = .ok (.adjustRelativeBase m0) ∧
    (inRange s 0 m0 → exec (.adjustRelativeBase m0) s =
      .next { s with rb := s.rb + valueOf s 0 m0, ip := s.ip + 2 }) ∧
    (¬ inRange s 0 m0 → faultsWith (exec (.adjustRelativeBase m0) s) .invalidAddress)

/-- R133, Halt: completes in every state, the status the only change; a RUNNING step that finds a 99 does so; and it is
the sole way into HALTED: no other instruction, and no step but a RUNNING one that finds a 99 at an `ip` that is not
negative. -/
def Obligations.HaltStopsTheRun : Prop :=
  (∀ s : State, exec .halt s = .next { s with runState := .halted }) ∧
  (∀ s : State, s.runState = .running → 0 ≤ s.ip → wordAtIp s = 99 → step s = .next { s with runState := .halted }) ∧
  (∀ (i : Instr) (s t : State), exec i s = .next t → s.runState ≠ .halted → t.runState = .halted → i = .halt) ∧
  (∀ s t : State, step s = .next t → s.runState ≠ .halted → t.runState = .halted →
    s.runState = .running ∧ 0 ≤ s.ip ∧ wordAtIp s = 99)

/-- R127: LessThan and Equals write exactly 1 or 0, the comparison being that of ℤ; and of `LT a,b`, `EQ a,b` and
`LT b,a`, run in states whose two value parameters are `a`, `b` (in that order, then swapped), exactly one writes 1. -/
def Obligations.ComparisonsAreTrichotomous : Prop :=
  (∀ (m0 m1 m2 : Mode) (s t : State), 0 ≤ s.ip → completes (.lessThan m0 m1 m2) s →
    exec (.lessThan m0 m1 m2) s = .next t →
    (valueOf s 0 m0 < valueOf s 1 m1 → t.mem.read (targetOf s 2 m2).toNat = 1) ∧
    (¬ valueOf s 0 m0 < valueOf s 1 m1 → t.mem.read (targetOf s 2 m2).toNat = 0)) ∧
  (∀ (m0 m1 m2 : Mode) (s t : State), 0 ≤ s.ip → completes (.equals m0 m1 m2) s →
    exec (.equals m0 m1 m2) s = .next t →
    (valueOf s 0 m0 = valueOf s 1 m1 → t.mem.read (targetOf s 2 m2).toNat = 1) ∧
    (valueOf s 0 m0 ≠ valueOf s 1 m1 → t.mem.read (targetOf s 2 m2).toNat = 0)) ∧
  (∀ (m0 m1 m2 : Mode) (s r t e u : State), 0 ≤ s.ip → 0 ≤ r.ip →
    completes (.lessThan m0 m1 m2) s → completes (.lessThan m1 m0 m2) r →
    valueOf r 0 m1 = valueOf s 1 m1 → valueOf r 1 m0 = valueOf s 0 m0 →
    exec (.lessThan m0 m1 m2) s = .next t → exec (.equals m0 m1 m2) s = .next e →
    exec (.lessThan m1 m0 m2) r = .next u →
    t.mem.read (targetOf s 2 m2).toNat + e.mem.read (targetOf s 2 m2).toNat +
      u.mem.read (targetOf r 2 m2).toNat = 1)

/-! ### Frames: what an instruction leaves unchanged -/

/-- Add, Multiply, LessThan and Equals leave `rb` and both queues, every cell but the destination, and, unless they
fault, the status fields; a fault leaves `ip` and every cell and records itself (R97, R147: D7, log 12). -/
def Obligations.FrameOfTheFourStores : Prop :=
  ∀ (m0 m1 m2 : Mode) (s t : State) (i : Instr),
    (i = .add m0 m1 m2 ∨ i = .multiply m0 m1 m2 ∨ i = .lessThan m0 m1 m2 ∨ i = .equals m0 m1 m2) →
    exec i s = .next t →
    t.rb = s.rb ∧ t.inq = s.inq ∧ t.out = s.out ∧
    (∀ d, resolveAddress s 2 m2 = .ok d → ∀ a : Nat, a ≠ d → t.mem.read a = s.mem.read a) ∧
    (∀ c, resolveAddress s 2 m2 = .error c → t.mem = s.mem) ∧
    ((t.runState = s.runState ∧ t.faultCause = s.faultCause ∧ t.faultIp = s.faultIp) ∨
     (t.runState = .faulted ∧ t.faultCause ≠ none ∧ t.faultIp = s.ip ∧ t.ip = s.ip ∧ t.mem = s.mem))

/-- Input leaves `rb` and the log, every cell but the destination, all of the queue behind its front, and, unless it
faults, the status fields; a fault leaves the queue too (R97, R115; D7, log 12). -/
def Obligations.FrameOfInput : Prop :=
  ∀ (m0 : Mode) (s t : State), exec (.input m0) s = .next t →
    t.rb = s.rb ∧ t.out = s.out ∧
    (∀ d, resolveAddress s 0 m0 = .ok d → ∀ a : Nat, a ≠ d → t.mem.read a = s.mem.read a) ∧
    (∀ c, resolveAddress s 0 m0 = .error c → t.mem = s.mem) ∧
    ((t.inq = s.inq.tail ∧ t.runState = s.runState ∧ t.faultCause = s.faultCause ∧ t.faultIp = s.faultIp) ∨
     (t.inq = s.inq ∧ t.runState = .faulted ∧ t.faultCause ≠ none ∧ t.faultIp = s.ip ∧ t.ip = s.ip ∧
      t.mem = s.mem))

/-- Output, the two jumps, AdjustRelativeBase and Halt store nothing: every cell and the input queue stay; the log
changes only by Output, `rb` only by AdjustRelativeBase, `ip` not by Halt; the status fields change only by Halt
(`run_state`) and by a fault, which leaves everything else (R97; D7, log 12). -/
def Obligations.FrameWithoutAStore : Prop :=
  ∀ (m0 m1 : Mode) (s t : State) (i : Instr),
    (i = .output m0 ∨ i = .jumpIfTrue m0 m1 ∨ i = .jumpIfFalse m0 m1 ∨ i = .adjustRelativeBase m0 ∨ i = .halt) →
    exec i s = .next t →
    (∀ a : Nat, t.mem.read a = s.mem.read a) ∧ t.mem = s.mem ∧ t.inq = s.inq ∧
    (i ≠ .output m0 → t.out = s.out) ∧ (i ≠ .adjustRelativeBase m0 → t.rb = s.rb) ∧ (i = .halt → t.ip = s.ip) ∧
    ((t.runState = (if i = .halt then .halted else s.runState) ∧ t.faultCause = s.faultCause ∧
      t.faultIp = s.faultIp) ∨
     (i ≠ .halt ∧ t.runState = .faulted ∧ t.faultCause ≠ none ∧ t.faultIp = s.ip ∧ t.ip = s.ip ∧ t.out = s.out ∧
      t.rb = s.rb))

/-! ### The step -/

/-- R86, R87: where the Word at `ip` decodes, the step of a RUNNING state is that instruction's meaning, and nothing
around it. -/
def Obligations.StepRunsTheDecodedInstruction : Prop :=
  ∀ (s : State) (i : Instr), s.runState = .running → fetches s i → step s = exec i s

/-- R87: a fetch that finds no instruction faults: a negative `ip` with InvalidAddress (D9, log 13), a word the Decoder
rejects with InvalidInstruction. -/
def Obligations.FailedFetchFaults : Prop :=
  ∀ s : State, s.runState = .running →
    (s.ip < 0 → step s = .next (afterFault .invalidAddress s)) ∧
    (0 ≤ s.ip → ∀ f, decode (wordAtIp s) = .error f → step s = .next (afterFault .invalidInstruction s))

/-- R98, R176: a step in READY is the host's `run`: RUNNING and nothing else (the model's form, log 6). -/
def Obligations.RunBeginsFromReady : Prop :=
  ∀ s : State, s.runState = .ready → step s = .next { s with runState := .running }

/-- R16, R134, R148: HALTED is frozen (D20, log 7), and a FAULTED state has no next state but the fault outcome with its
cause (the model's form, log 8). -/
def Obligations.TerminalStatesAreNeverLeft : Prop :=
  ∀ s : State, (s.runState = .halted → step s = .next s) ∧
    (s.runState = .faulted → step s = .fault (.faulted s.faultCause))

/-- Every instruction in every state answers a state, and so does every step but one from FAULTED. The spec says so of
the step while RUNNING and of `run` while READY (R86, R98, R99); the rest is the model's form: a fault is a next state
(log 8), a step from READY is `run` (log 6), a step from HALTED answers the same state (log 7, D20), and `exec` at a
negative `ip`, which no step calls, answers a state too (log 21). -/
def Obligations.EveryStepAnswersAState : Prop :=
  (∀ (i : Instr) (s : State), ∃ t, exec i s = .next t) ∧
  (∀ s : State, s.runState ≠ .faulted → ∃ t, step s = .next t)

/-- R16: the only changes of `run_state` a step makes (D14, log 17). -/
def Obligations.RunStateTransitions : Prop :=
  ∀ s t : State, step s = .next t →
    (s.runState = .ready ∧ t.runState = .running) ∨
    (s.runState = .running ∧ (t.runState = .running ∨ t.runState = .halted ∨ t.runState = .faulted)) ∨
    (s.runState = .halted ∧ t.runState = .halted)

/-- R146: which fault a RUNNING step takes, if any: the first in the fixed order (D6, D8, D9: logs 11, 13, 21), with the
whole effect of R147 (D7: log 12); if none applies, the step does not fault. -/
def Obligations.FirstFaultIsTaken : Prop :=
  ∀ s : State, s.runState = .running →
    (∀ c, firstFault s = some c → step s = .next (afterFault c s)) ∧
    (firstFault s = none → ∃ t, step s = .next t ∧ t.runState ≠ .faulted ∧ t.faultCause = s.faultCause)

/-- R97, R147: a step that faults records the fault and changes nothing else (D7, log 12). -/
def Obligations.FaultsArePrecise : Prop :=
  ∀ s t : State, step s = .next t → t.runState = .faulted → ∃ c, t = afterFault c s

/-- R141: InvalidInstruction is taken exactly when the word fetched is invalid by its digits, R56 (a) to (d) (D4, D6:
logs 9, 11). -/
def Obligations.InvalidInstructionExactly : Prop :=
  ∀ s : State, s.runState = .running →
    (faultsWith (step s) .invalidInstruction ↔
      0 ≤ s.ip ∧ (undecodable (wordAtIp s) ∨ immediateDestination (wordAtIp s)))

/-- R142: InvalidAddress is taken exactly when `ip` is negative (D9, log 13) or a legal instruction has a parameter that
names a negative address. Legal, because an Immediate destination is rejected before any address is checked (R89, R146;
D6, D8: logs 11, 21). -/
def Obligations.InvalidAddressExactly : Prop :=
  ∀ s : State, s.runState = .running →
    (faultsWith (step s) .invalidAddress ↔
      s.ip < 0 ∨ ∃ i, fetches s i ∧ i.wellFormed = true ∧ allInRange s 0 i.params = false)

/-- R143: InputExhausted is taken exactly by an Input whose address resolved and that finds the queue empty. -/
def Obligations.InputExhaustedExactly : Prop :=
  ∀ s : State, s.runState = .running →
    (faultsWith (step s) .inputExhausted ↔
      ∃ m0, fetches s (.input m0) ∧ m0 ≠ .immediate ∧ inRange s 0 m0 ∧ s.inq = [])

/-- R134: a RUNNING step halts exactly when the Word at a non-negative `ip` is 99, and then only `run_state` changes. -/
def Obligations.HaltedExactlyBy99 : Prop :=
  ∀ s t : State, s.runState = .running → step s = .next t →
    (t.runState = .halted ↔ 0 ≤ s.ip ∧ wordAtIp s = 99) ∧
    (t.runState = .halted → t = { s with runState := .halted })

/-- R13, R96, R122 (a): what a step does to `ip`: the table of R13; Halt and every fault leave it (D7, log 12). -/
def Obligations.InstructionPointerTable : Prop :=
  ∀ (s t : State) (i : Instr), s.runState = .running → fetches s i → step s = .next t →
    (t.runState = .faulted → t.ip = s.ip) ∧ (t.runState ≠ .faulted → t.ip = ipAfter i s) ∧
    ((∀ m0 m1, i ≠ .jumpIfTrue m0 m1 ∧ i ≠ .jumpIfFalse m0 m1) → i ≠ .halt →
      ipAfter i s = s.ip + 1 + i.paramCount)

/-- R15: only AdjustRelativeBase changes `rb`. -/
def Obligations.BaseChangesOnlyByItsInstruction : Prop :=
  ∀ s t : State, step s = .next t → t.rb ≠ s.rb →
    s.runState = .running ∧ ∃ m0, fetches s (.adjustRelativeBase m0) ∧ t.rb = s.rb + valueOf s 0 m0

/-- R22, R117, R119: a step leaves the input queue or is a completed Input that stored its front. -/
def Obligations.InputQueueOnlyPops : Prop :=
  ∀ s t : State, step s = .next t →
    t.inq = s.inq ∨
    ∃ m0 v, fetches s (.input m0) ∧ s.inq = v :: t.inq ∧ t.mem.read (targetOf s 0 m0).toNat = v

/-- R23, R118, R119: a step leaves the log or is a completed Output that appended its value. -/
def Obligations.OutputLogOnlyGrows : Prop :=
  ∀ s t : State, step s = .next t →
    t.out = s.out ∨ ∃ m0, fetches s (.output m0) ∧ t.out = s.out ++ [valueOf s 0 m0]

/-- R36, R43, R46: memory changes only at the address of the step's one write access. -/
def Obligations.MemoryChangesOnlyWhereWritten : Prop :=
  ∀ s t : State, step s = .next t → ∀ a : Nat,
    ¬ (s.runState = .running ∧ Access.write a ∈ stepAccesses s) → t.mem.read a = s.mem.read a

/-- R43: a store is seen by the very next fetch: an Add that writes the word after itself is followed by the instruction
that word is. -/
def Obligations.StoreIsSeenByTheNextFetch : Prop :=
  ∀ (m0 m1 m2 : Mode) (s : State) (j : Instr), s.runState = .running → fetches s (.add m0 m1 m2) →
    completes (.add m0 m1 m2) s → targetOf s 2 m2 = s.ip + 4 →
    decode (valueOf s 0 m0 + valueOf s 1 m1) = .ok j →
    ∃ t, step s = .next t ∧ t.ip = s.ip + 4 ∧ step t = exec j t

/-- R36, R37: a step depends on memory only through the cells it reads. Two RUNNING states that differ in memory only,
and agree on every cell the step of the first reads, change alike: the same registers, queues and status, the same Word
written at the written address, every other cell as it was. -/
def Obligations.ReadCellsDetermineTheStep : Prop :=
  ∀ (s t t' : State) (m : Memory), s.runState = .running →
    (∀ a : Nat, Access.read a ∈ stepAccesses s → m.read a = s.mem.read a) →
    step s = .next t → step { s with mem := m } = .next t' →
    t'.ip = t.ip ∧ t'.rb = t.rb ∧ t'.inq = t.inq ∧ t'.out = t.out ∧ t'.runState = t.runState ∧
    t'.faultCause = t.faultCause ∧ t'.faultIp = t.faultIp ∧
    ∀ a : Nat, t'.mem.read a = if Access.write a ∈ stepAccesses s then t.mem.read a else m.read a

/-- The invariant holds after every construction, reset among them (R27, R170; log 2), and none of them is FAULTED or
records a cause (R27; D14, log 17). -/
def Obligations.ConstructionIsGood : Prop :=
  good State.reset ∧ State.reset.runState ≠ .faulted ∧ State.reset.faultCause = none ∧
  ∀ image inputs : List Int, good (construct image inputs) ∧
    (construct image inputs).runState ≠ .faulted ∧ (construct image inputs).faultCause = none

/-- Every step keeps the invariant: canonical memory (log 2), a fault cause exactly while FAULTED (R17), and
`fault_ip = ip` while FAULTED (R18). -/
def Obligations.EveryStepKeepsGood : Prop :=
  ∀ s t : State, good s → step s = .next t → good t

/-! ### The OPEN parameters and the phases -/

/-- R6: with every OPEN parameter at its default the limited machine is the machine (log 22). -/
def Obligations.NoLimitsIsTheMachine : Prop :=
  (∀ s : State, stepWithin Config.Limits.unbounded s = step s) ∧
  (∀ image inputs : List Int, constructWithin Config.Limits.unbounded image inputs = .next (construct image inputs)) ∧
  (∀ (s : State) (lo hi : Int), inspectMemWithin Config.Limits.unbounded s lo hi = inspectMem s lo hi)

/-- R6, R185, U1, U2: under any limits a step is the machine's own step or a refusal, never a wrapped value or a fault of
its own, and a state it answers is within the limits, as are the addresses the step formed and accessed and the
`next_ip` it formed, be it then discarded (a taken jump, an Input that finds no element: R86, R120) (log 22). -/
def Obligations.LimitsOnlyRefuse : Prop :=
  ∀ (l : Config.Limits) (s : State),
    (stepWithin l s = step s ∨ ∃ r, stepWithin l s = .refused r) ∧
    (∀ t, s.runState = .running → stepWithin l s = .next t →
      (∀ n, l.wordBits = some n → ∀ v : Int,
        (v = t.ip ∨ v = t.rb ∨ v ∈ t.inq ∨ v ∈ t.out ∨ (v ≠ 0 ∧ ∃ a, t.mem.read a = v)) →
        -(2 : Int) ^ (n - 1) ≤ v ∧ v ≤ 2 ^ (n - 1) - 1) ∧
      (∀ n, l.wordBits = some n → ∀ a ∈ stepFormed s, -(2 : Int) ^ (n - 1) ≤ a ∧ a ≤ 2 ^ (n - 1) - 1) ∧
      (∀ n, l.wordBits = some n → ∀ i, fetches s i → i ≠ .halt → i.wellFormed = true →
        allInRange s 0 i.params = true →
        -(2 : Int) ^ (n - 1) ≤ s.ip + 1 + i.paramCount ∧ s.ip + 1 + i.paramCount ≤ 2 ^ (n - 1) - 1) ∧
      (∀ top, l.memLimit = some top → ∀ x ∈ stepAccesses s, accessAddr x ≤ (top : Int)) ∧
      (∀ d, l.outDepth = some d → t.out.length ≤ d))

/-- R100 against R86 (informative phases, D22, log 23): from S_FETCH of a RUNNING engine, whatever its working values,
the phases reach in at most nine ticks exactly the state of the atomic step, in S_FETCH, S_HALT or S_FAULT, and show no
other architectural state on the way (R37, R97). -/
def Obligations.PhasesRefineTheStep : Prop :=
  ∀ q : Sequencer, q.phase = .fetch → q.arch.runState = .running →
    ∃ (k : Nat) (t : State), k ≤ 9 ∧ step q.arch = .next t ∧ (ticks k q).arch = t ∧
      (∀ j, j < k → (ticks j q).arch = q.arch) ∧
      ((t.runState = .running ∧ (ticks k q).phase = .fetch) ∨
       (t.runState = .halted ∧ (ticks k q).phase = .halt) ∨
       (t.runState = .faulted ∧ ∃ c, t.faultCause = some c ∧ (ticks k q).phase = .fault c))

/-- R6, R185, R179 for the host's two operations (log 22): construction under limits is construction exactly when the
addresses it loads, the Words of the image and of the inputs and the number of inputs fit, and a refusal otherwise; and
inspection under limits is inspection exactly when the range includes no address beyond the limits, and none otherwise. -/
def Obligations.HostOperationsWithinLimits : Prop :=
  ∀ l : Config.Limits,
    (∀ image inputs : List Int,
      (constructWithin l image inputs = .next (construct image inputs) ∨
        ∃ r, constructWithin l image inputs = .refused r) ∧
      (constructWithin l image inputs = .next (construct image inputs) ↔
        (∀ top, l.memLimit = some top → ∀ k : Nat, k < image.length → k ≤ top) ∧
        (∀ n, l.wordBits = some n → (∀ k : Nat, k < image.length → (k : Int) ≤ 2 ^ (n - 1) - 1) ∧
          ∀ v ∈ image ++ inputs, -(2 : Int) ^ (n - 1) ≤ v ∧ v ≤ 2 ^ (n - 1) - 1) ∧
        (∀ d, l.inqDepth = some d → inputs.length ≤ d))) ∧
    (∀ (s : State) (lo hi : Int),
      ((∀ a : Int, lo ≤ a → a ≤ hi →
          (∀ top, l.memLimit = some top → a ≤ (top : Int)) ∧ (∀ n, l.wordBits = some n → a ≤ 2 ^ (n - 1) - 1)) →
        inspectMemWithin l s lo hi = inspectMem s lo hi) ∧
      (∀ a : Int, lo ≤ a → a ≤ hi →
        ((∃ top, l.memLimit = some top ∧ (top : Int) < a) ∨ (∃ n, l.wordBits = some n ∧ 2 ^ (n - 1) - 1 < a)) →
        inspectMemWithin l s lo hi = none))
end

