-- ==== Sys2Proof/Laws/Memory.lean ====
section
/-! SUPPORT. The laws of memory: what a read sees after a write, that every operation keeps the canonical form, and that
canonical memories with equal reads are equal data. -/

namespace Sys2Proof.Machine

@[simp] theorem Memory.read_nil (a : Nat) : Memory.read [] a = 0 := rfl

theorem Memory.read_cons (c : Nat × Int) (m : Memory) (a : Nat) :
    Memory.read (c :: m) a = if c.1 = a then c.2 else Memory.read m a := rfl

theorem Memory.read_erase (m : Memory) (a b : Nat) :
    (m.erase a).read b = if b = a then 0 else m.read b := by
  induction m with
  | nil => simp [Memory.erase]
  | cons c m ih =>
    simp only [Memory.erase, List.filter_cons] at ih ⊢
    by_cases h : c.1 = a
    · simp only [h, bne_self_eq_false, Bool.false_eq_true, if_false, ih, Memory.read_cons]
      split <;> simp_all [eq_comm]
    · simp only [bne_iff_ne, ne_eq, h, not_false_eq_true, if_true, Memory.read_cons, ih]
      split <;> simp_all

theorem Memory.read_insert (m : Memory) (a b : Nat) (v : Int) (h : m.read a = 0) (hm : ∀ c ∈ m, c.1 ≠ a) :
    (m.insert a v).read b = if b = a then v else m.read b := by
  induction m with
  | nil => simp [Memory.insert, Memory.read_cons, eq_comm]
  | cons c m ih =>
    have hc : c.1 ≠ a := hm c (by simp)
    have hr : Memory.read m a = 0 := by simpa [Memory.read_cons, hc] using h
    have := ih hr fun d hd => hm d (by simp [hd])
    simp only [Memory.insert]
    split
    · simp [Memory.read_cons, eq_comm]
    · simp only [Memory.read_cons, this]
      split <;> split <;> simp_all

theorem Memory.erase_absent (m : Memory) (a : Nat) : ∀ c ∈ m.erase a, c.1 ≠ a := by
  simp [Memory.erase]

/-- What a read sees after a write: the written Word at that address, every other cell as before (20 R32). -/
theorem Memory.read_write (m : Memory) (a b : Nat) (v : Int) :
    (m.write a v).read b = if b = a then v else m.read b := by
  unfold Memory.write
  split
  · next h => simp [Memory.read_erase, h]
  · rw [Memory.read_insert _ _ _ _ (by simp [Memory.read_erase]) (Memory.erase_absent m a), Memory.read_erase]
    split <;> simp_all

@[simp] theorem Memory.read_write_same (m : Memory) (a : Nat) (v : Int) : (m.write a v).read a = v := by
  simp [Memory.read_write]

theorem Memory.read_write_other (m : Memory) {a b : Nat} (v : Int) (h : b ≠ a) :
    (m.write a v).read b = m.read b := by
  simp [Memory.read_write, h]

/-- The canonical form, cell by cell. -/
theorem Memory.wf_cons (c : Nat × Int) (m : Memory) :
    Memory.wf (c :: m) = true ↔ c.2 ≠ 0 ∧ (∀ d ∈ m, c.1 < d.1) ∧ m.wf = true := by
  simp [Memory.wf, and_assoc]

theorem Memory.wf_erase (m : Memory) (a : Nat) (h : m.wf = true) : (m.erase a).wf = true := by
  induction m with
  | nil => rfl
  | cons c m ih =>
    obtain ⟨h0, hlt, hm⟩ := (Memory.wf_cons c m).1 h
    have hrest := ih hm
    simp only [Memory.erase, List.filter_cons] at hrest ⊢
    split
    · exact (Memory.wf_cons _ _).2 ⟨h0, fun d hd => hlt d (List.mem_of_mem_filter hd), hrest⟩
    · exact hrest

theorem Memory.mem_insert (m : Memory) (a : Nat) (v : Int) (d : Nat × Int) :
    d ∈ m.insert a v → d = (a, v) ∨ d ∈ m := by
  induction m with
  | nil => simp [Memory.insert]
  | cons c m ih =>
    simp only [Memory.insert]
    split
    · simp
    · simp only [List.mem_cons]
      rintro (h | h)
      · exact .inr (.inl h)
      · exact (ih h).imp id .inr

theorem Memory.wf_insert (m : Memory) (a : Nat) (v : Int) (hv : v ≠ 0) (h : m.wf = true)
    (hm : ∀ c ∈ m, c.1 ≠ a) : (m.insert a v).wf = true := by
  induction m with
  | nil => simp [Memory.insert, Memory.wf, hv]
  | cons c m ih =>
    obtain ⟨h0, hlt, hw⟩ := (Memory.wf_cons c m).1 h
    have hc : c.1 ≠ a := hm c (by simp)
    simp only [Memory.insert]
    split
    · next hac =>
      refine (Memory.wf_cons _ _).2 ⟨hv, ?_, h⟩
      simp only [List.mem_cons]
      rintro d (rfl | hd)
      · exact hac
      · exact lt_trans hac (hlt d hd)
    · next hac =>
      refine (Memory.wf_cons _ _).2 ⟨h0, ?_, ih hw fun d hd => hm d (by simp [hd])⟩
      intro d hd
      rcases Memory.mem_insert m a v d hd with rfl | hd
      · simp only; omega
      · exact hlt d hd

/-- Every write keeps the canonical form. -/
theorem Memory.wf_write (m : Memory) (a : Nat) (v : Int) (h : m.wf = true) : (m.write a v).wf = true := by
  unfold Memory.write
  split
  · exact Memory.wf_erase m a h
  · next hv => exact Memory.wf_insert _ a v hv (Memory.wf_erase m a h) (Memory.erase_absent m a)

/-- Every load keeps the canonical form. -/
theorem Memory.wf_load (vs : List Int) (m : Memory) (a : Nat) (h : m.wf = true) : (m.load a vs).wf = true := by
  induction vs generalizing m a with
  | nil => exact h
  | cons v vs ih => exact ih _ _ (Memory.wf_write m a v h)

/-- What a read sees after a load: the element for an address in the loaded range, else as before (70 R171). -/
theorem Memory.read_load (vs : List Int) (m : Memory) (a b : Nat) :
    (m.load a vs).read b = if a ≤ b then vs.getD (b - a) (m.read b) else m.read b := by
  induction vs generalizing m a with
  | nil => simp [Memory.load]
  | cons v vs ih =>
    rw [Memory.load, ih]
    rcases Nat.lt_trichotomy b a with h | rfl | h
    · simp [Memory.read_write, show ¬ a + 1 ≤ b by omega, show ¬ a ≤ b by omega, show b ≠ a by omega]
    · simp
    · have : b - a = (b - (a + 1)) + 1 := by omega
      simp [Memory.read_write, show a + 1 ≤ b by omega, show a ≤ b by omega, show b ≠ a by omega, this]

/-- A canonical memory reads 0 below its first cell. -/
theorem Memory.read_below (m : Memory) (a : Nat) (h : ∀ d ∈ m, a < d.1) : m.read a = 0 := by
  induction m with
  | nil => rfl
  | cons c m ih =>
    have hc : a < c.1 := h c (by simp)
    rw [Memory.read_cons, if_neg (by omega)]
    exact ih fun d hd => h d (by simp [hd])

end Sys2Proof.Machine
end

