-- ==== Sys2Proof/Laws/State.lean ====
section
/-! SUPPORT. One lemma per field for every update of the state, true by rfl, so that no later proof unfolds a record
update. -/

namespace Sys2Proof.Machine

@[simp] theorem setCell_mem (s : State) (a : Nat) (v : Int) : (setCell s a v).mem = s.mem.write a v := rfl
@[simp] theorem setCell_ip (s : State) (a : Nat) (v : Int) : (setCell s a v).ip = s.ip := rfl
@[simp] theorem setCell_rb (s : State) (a : Nat) (v : Int) : (setCell s a v).rb = s.rb := rfl
@[simp] theorem setCell_inq (s : State) (a : Nat) (v : Int) : (setCell s a v).inq = s.inq := rfl
@[simp] theorem setCell_out (s : State) (a : Nat) (v : Int) : (setCell s a v).out = s.out := rfl
@[simp] theorem setCell_runState (s : State) (a : Nat) (v : Int) : (setCell s a v).runState = s.runState := rfl
@[simp] theorem setCell_faultCause (s : State) (a : Nat) (v : Int) : (setCell s a v).faultCause = s.faultCause := rfl
@[simp] theorem setCell_faultIp (s : State) (a : Nat) (v : Int) : (setCell s a v).faultIp = s.faultIp := rfl

@[simp] theorem setIp_mem (s : State) (x : Int) : (setIp s x).mem = s.mem := rfl
@[simp] theorem setIp_ip (s : State) (x : Int) : (setIp s x).ip = x := rfl
@[simp] theorem setIp_rb (s : State) (x : Int) : (setIp s x).rb = s.rb := rfl
@[simp] theorem setIp_inq (s : State) (x : Int) : (setIp s x).inq = s.inq := rfl
@[simp] theorem setIp_out (s : State) (x : Int) : (setIp s x).out = s.out := rfl
@[simp] theorem setIp_runState (s : State) (x : Int) : (setIp s x).runState = s.runState := rfl
@[simp] theorem setIp_faultCause (s : State) (x : Int) : (setIp s x).faultCause = s.faultCause := rfl
@[simp] theorem setIp_faultIp (s : State) (x : Int) : (setIp s x).faultIp = s.faultIp := rfl

@[simp] theorem advance_mem (s : State) (n : Nat) : (advance s n).mem = s.mem := rfl
@[simp] theorem advance_ip (s : State) (n : Nat) : (advance s n).ip = s.ip + 1 + n := rfl
@[simp] theorem advance_rb (s : State) (n : Nat) : (advance s n).rb = s.rb := rfl
@[simp] theorem advance_inq (s : State) (n : Nat) : (advance s n).inq = s.inq := rfl
@[simp] theorem advance_out (s : State) (n : Nat) : (advance s n).out = s.out := rfl
@[simp] theorem advance_runState (s : State) (n : Nat) : (advance s n).runState = s.runState := rfl
@[simp] theorem advance_faultCause (s : State) (n : Nat) : (advance s n).faultCause = s.faultCause := rfl
@[simp] theorem advance_faultIp (s : State) (n : Nat) : (advance s n).faultIp = s.faultIp := rfl

@[simp] theorem addToBase_mem (s : State) (a : Int) : (addToBase s a).mem = s.mem := rfl
@[simp] theorem addToBase_ip (s : State) (a : Int) : (addToBase s a).ip = s.ip := rfl
@[simp] theorem addToBase_rb (s : State) (a : Int) : (addToBase s a).rb = s.rb + a := rfl
@[simp] theorem addToBase_inq (s : State) (a : Int) : (addToBase s a).inq = s.inq := rfl
@[simp] theorem addToBase_out (s : State) (a : Int) : (addToBase s a).out = s.out := rfl
@[simp] theorem addToBase_runState (s : State) (a : Int) : (addToBase s a).runState = s.runState := rfl
@[simp] theorem addToBase_faultCause (s : State) (a : Int) : (addToBase s a).faultCause = s.faultCause := rfl
@[simp] theorem addToBase_faultIp (s : State) (a : Int) : (addToBase s a).faultIp = s.faultIp := rfl

@[simp] theorem outPush_mem (s : State) (v : Int) : (outPush s v).mem = s.mem := rfl
@[simp] theorem outPush_ip (s : State) (v : Int) : (outPush s v).ip = s.ip := rfl
@[simp] theorem outPush_rb (s : State) (v : Int) : (outPush s v).rb = s.rb := rfl
@[simp] theorem outPush_inq (s : State) (v : Int) : (outPush s v).inq = s.inq := rfl
@[simp] theorem outPush_out (s : State) (v : Int) : (outPush s v).out = s.out ++ [v] := rfl
@[simp] theorem outPush_runState (s : State) (v : Int) : (outPush s v).runState = s.runState := rfl
@[simp] theorem outPush_faultCause (s : State) (v : Int) : (outPush s v).faultCause = s.faultCause := rfl
@[simp] theorem outPush_faultIp (s : State) (v : Int) : (outPush s v).faultIp = s.faultIp := rfl

@[simp] theorem haltRun_mem (s : State) : (haltRun s).mem = s.mem := rfl
@[simp] theorem haltRun_ip (s : State) : (haltRun s).ip = s.ip := rfl
@[simp] theorem haltRun_rb (s : State) : (haltRun s).rb = s.rb := rfl
@[simp] theorem haltRun_inq (s : State) : (haltRun s).inq = s.inq := rfl
@[simp] theorem haltRun_out (s : State) : (haltRun s).out = s.out := rfl
@[simp] theorem haltRun_runState (s : State) : (haltRun s).runState = .halted := rfl
@[simp] theorem haltRun_faultCause (s : State) : (haltRun s).faultCause = s.faultCause := rfl
@[simp] theorem haltRun_faultIp (s : State) : (haltRun s).faultIp = s.faultIp := rfl

@[simp] theorem faultedState_mem (c : FaultCause) (s : State) : (faultedState c s).mem = s.mem := rfl
@[simp] theorem faultedState_ip (c : FaultCause) (s : State) : (faultedState c s).ip = s.ip := rfl
@[simp] theorem faultedState_rb (c : FaultCause) (s : State) : (faultedState c s).rb = s.rb := rfl
@[simp] theorem faultedState_inq (c : FaultCause) (s : State) : (faultedState c s).inq = s.inq := rfl
@[simp] theorem faultedState_out (c : FaultCause) (s : State) : (faultedState c s).out = s.out := rfl
@[simp] theorem faultedState_runState (c : FaultCause) (s : State) : (faultedState c s).runState = .faulted := rfl
@[simp] theorem faultedState_faultCause (c : FaultCause) (s : State) : (faultedState c s).faultCause = some c := rfl
@[simp] theorem faultedState_faultIp (c : FaultCause) (s : State) : (faultedState c s).faultIp = s.ip := rfl

@[simp] theorem placeWord_mem (s : State) (w : Int) : (placeWord s w).mem = s.mem.load s.ip.toNat [w, 0, 0, 0] := rfl
@[simp] theorem placeWord_ip (s : State) (w : Int) : (placeWord s w).ip = (s.ip.toNat : Int) := rfl
@[simp] theorem placeWord_rb (s : State) (w : Int) : (placeWord s w).rb = s.rb := rfl
@[simp] theorem placeWord_inq (s : State) (w : Int) : (placeWord s w).inq = s.inq := rfl
@[simp] theorem placeWord_out (s : State) (w : Int) : (placeWord s w).out = s.out := rfl
@[simp] theorem placeWord_runState (s : State) (w : Int) : (placeWord s w).runState = .running := rfl
@[simp] theorem placeWord_faultCause (s : State) (w : Int) : (placeWord s w).faultCause = none := rfl
@[simp] theorem placeWord_faultIp (s : State) (w : Int) : (placeWord s w).faultIp = s.faultIp := rfl

end Sys2Proof.Machine
end

