-- ==== Sys2Proof/Laws/Ops.lean ====
section
/-! SUPPORT. For each shared operation, once, everything it can do. The provers cite these and do not unfold the
operations. -/

namespace Sys2Proof.Machine

open Sys2Proof.Safety

/-- `checkAddr` answers the address, or InvalidAddress for a negative one. -/
theorem checkAddr_eq (a : Int) : checkAddr a = if a < 0 then .error .invalidAddress else .ok a.toNat := rfl

/-- `memRead` answers the cell, or InvalidAddress for a negative address. -/
theorem memRead_eq (s : State) (a : Int) :
    memRead s a = if a < 0 then .error .invalidAddress else .ok (s.mem.read a.toNat) := by
  unfold memRead checkAddr
  split <;> rfl

/-- `memWrite` writes the cell, or answers InvalidAddress for a negative address. -/
theorem memWrite_eq (s : State) (a : Int) (v : Int) :
    memWrite s a v = if a < 0 then .error .invalidAddress else .ok (setCell s a.toNat v) := by
  unfold memWrite checkAddr
  split <;> rfl

theorem fetchParam_eq (s : State) (i : Nat) (h : 0 ≤ s.ip) : fetchParam s i = .ok (paramWord s i) := by
  rw [fetchParam, memRead_eq, if_neg (by omega)]
  rfl

/-- `resolveValue` after a successful fetch: the value, or InvalidAddress for a parameter out of range. -/
theorem resolveValue_eq (s : State) (i : Nat) (m : Mode) (h : 0 ≤ s.ip) :
    resolveValue s i m = if inRange s i m then .ok (valueOf s i m) else .error .invalidAddress := by
  simp only [resolveValue, fetchParam_eq s i h, bind, Except.bind, memRead_eq, formAddress]
  cases m with
  | immediate => simp [valueOf, pure, Except.pure]
  | position =>
    by_cases h0 : paramWord s i < 0
    · simp [targetOf, h0]
    · simp [targetOf, valueOf, h0, show 0 ≤ paramWord s i by omega]
  | relative =>
    by_cases h0 : s.rb + paramWord s i < 0
    · simp [targetOf, h0]
    · simp [targetOf, valueOf, h0, show 0 ≤ s.rb + paramWord s i by omega]

/-- `resolveAddress` after a successful fetch, for the two modes an address parameter may have. -/
theorem resolveAddress_eq (s : State) (i : Nat) (m : Mode) (h : 0 ≤ s.ip) (hm : m ≠ .immediate) :
    resolveAddress s i m = if inRange s i m then .ok (targetOf s i m).toNat else .error .invalidAddress := by
  simp only [resolveAddress, fetchParam_eq s i h, bind, Except.bind, checkAddr_eq, formAddress]
  cases m with
  | immediate => exact absurd rfl hm
  | position =>
    by_cases h0 : paramWord s i < 0
    · simp [targetOf, h0]
    · simp [targetOf, h0, show 0 ≤ paramWord s i by omega]
  | relative =>
    by_cases h0 : s.rb + paramWord s i < 0
    · simp [targetOf, h0]
    · simp [targetOf, h0, show 0 ≤ s.rb + paramWord s i by omega]

theorem checkWriteMode_eq (m : Mode) :
    checkWriteMode m = if m = .immediate then .error .invalidInstruction else .ok () := by
  cases m <;> rfl

@[simp] theorem settle_ok (s t : State) : settle s (.ok t) = .next t := rfl

@[simp] theorem settle_error (s : State) (c : FaultCause) : settle s (.error c) = .next (faultedState c s) := rfl

/-- A meaning ends in a next state: the one it commits, or the one of its fault. -/
theorem settle_cases {s t : State} {r : Except FaultCause State} (h : settle s r = .next t) :
    r = .ok t ∨ ∃ c, r = .error c ∧ t = faultedState c s := by
  cases r with
  | ok u => cases h; exact .inl rfl
  | error c => cases h; exact .inr ⟨c, rfl, rfl⟩

theorem settle_answers (s : State) (r : Except FaultCause State) : ∃ t, settle s r = .next t := by
  cases r <;> exact ⟨_, rfl⟩

/-- The one shape of Add, Multiply, LessThan and Equals, in full. -/
theorem storeBinary_eq (op : Int → Int → Int) (m0 m1 m2 : Mode) (s : State) (h : 0 ≤ s.ip) :
    storeBinary op m0 m1 m2 s =
      if m2 = .immediate then .error .invalidInstruction
      else if inRange s 0 m0 ∧ inRange s 1 m1 ∧ inRange s 2 m2 then
        .ok (advance (setCell s (targetOf s 2 m2).toNat (op (valueOf s 0 m0) (valueOf s 1 m1))) 3)
      else .error .invalidAddress := by
  unfold storeBinary
  simp only [checkWriteMode_eq, resolveValue_eq _ _ _ h, bind, Except.bind]
  by_cases h2 : m2 = .immediate
  · simp [h2]
  · rw [resolveAddress_eq s 2 m2 h h2]
    by_cases r0 : inRange s 0 m0 <;> by_cases r1 : inRange s 1 m1 <;> by_cases r2 : inRange s 2 m2 <;>
      simp [h2, r0, r1, r2, pure, Except.pure]

/-- What the shape of Add, Multiply, LessThan and Equals commits, from any state. -/
theorem storeBinary_ok {op : Int → Int → Int} {m0 m1 m2 : Mode} {s t : State} (h : storeBinary op m0 m1 m2 s = .ok t) :
    ∃ a b d, resolveValue s 0 m0 = .ok a ∧ resolveValue s 1 m1 = .ok b ∧ resolveAddress s 2 m2 = .ok d ∧
      t = advance (setCell s d (op a b)) 3 := by
  unfold storeBinary at h
  simp only [bind, Except.bind] at h
  cases h2 : checkWriteMode m2 <;> cases ha : resolveValue s 0 m0 <;> cases hb : resolveValue s 1 m1 <;>
    cases hd : resolveAddress s 2 m2 <;> simp_all [pure, Except.pure]

/-- The one shape of the jumps, in full. -/
theorem jumpWhen_eq (taken : Int → Bool) (m0 m1 : Mode) (s : State) (h : 0 ≤ s.ip) :
    jumpWhen taken m0 m1 s =
      if inRange s 0 m0 ∧ inRange s 1 m1 then
        .ok (if taken (valueOf s 0 m0) then setIp s (valueOf s 1 m1) else advance s 2)
      else .error .invalidAddress := by
  unfold jumpWhen
  simp only [resolveValue_eq _ _ _ h, bind, Except.bind]
  by_cases r0 : inRange s 0 m0 <;> by_cases r1 : inRange s 1 m1 <;> simp [r0, r1, pure, Except.pure]

/-- What the shape of the jumps commits, from any state: `ip` alone. -/
theorem jumpWhen_ok {taken : Int → Bool} {m0 m1 : Mode} {s t : State} (h : jumpWhen taken m0 m1 s = .ok t) :
    ∃ x, t = setIp s x := by
  unfold jumpWhen at h
  simp only [bind, Except.bind] at h
  cases ha : resolveValue s 0 m0 <;> cases hb : resolveValue s 1 m1 <;> simp [ha, hb, pure, Except.pure] at h
  subst h
  split
  · exact ⟨_, rfl⟩
  · exact ⟨_, rfl⟩

/-- Input in full. -/
theorem execInput_eq (m0 : Mode) (s : State) (h : 0 ≤ s.ip) :
    execInput m0 s =
      if m0 = .immediate then .next (faultedState .invalidInstruction s)
      else if inRange s 0 m0 then
        match s.inq with
        | [] => .next (faultedState .inputExhausted s)
        | v :: rest => .next (advance (setCell { s with inq := rest } (targetOf s 0 m0).toNat v) 1)
      else .next (faultedState .invalidAddress s) := by
  unfold execInput inPop
  simp only [checkWriteMode_eq, bind, Except.bind]
  by_cases h0 : m0 = .immediate
  · simp [h0]
  · rw [resolveAddress_eq s 0 m0 h h0]
    by_cases r0 : inRange s 0 m0
    · cases hq : s.inq <;> simp [h0, r0, pure, Except.pure]
    · simp [h0, r0]

/-- Output in full. -/
theorem execOutput_eq (m0 : Mode) (s : State) (h : 0 ≤ s.ip) :
    execOutput m0 s =
      if inRange s 0 m0 then .next (advance (outPush s (valueOf s 0 m0)) 1)
      else .next (faultedState .invalidAddress s) := by
  unfold execOutput
  simp only [resolveValue_eq _ _ _ h, bind, Except.bind]
  by_cases r0 : inRange s 0 m0 <;> simp [r0, pure, Except.pure]

/-- AdjustRelativeBase in full. -/
theorem execAdjustRelativeBase_eq (m0 : Mode) (s : State) (h : 0 ≤ s.ip) :
    execAdjustRelativeBase m0 s =
      if inRange s 0 m0 then .next (advance (addToBase s (valueOf s 0 m0)) 1)
      else .next (faultedState .invalidAddress s) := by
  unfold execAdjustRelativeBase
  simp only [resolveValue_eq _ _ _ h, bind, Except.bind]
  by_cases r0 : inRange s 0 m0 <;> simp [r0, pure, Except.pure]

/-- The fetch in full (41 R87). -/
theorem fetch_eq (s : State) :
    fetch s =
      if s.ip < 0 then .error .invalidAddress
      else
        match decode (wordAtIp s) with
        | .ok i => .ok i
        | .error _ => .error .invalidInstruction := by
  unfold fetch
  rw [memRead_eq]
  split
  · rfl
  · simp only [bind, Except.bind, wordAtIp]
    cases decode (s.mem.read s.ip.toNat) <;> rfl

theorem fetch_of_fetches {s : State} {i : Instr} (h : fetches s i) : fetch s = .ok i := by
  rw [fetch_eq, if_neg (by omega), h.2]

/-- A successful fetch found an instruction at an address. -/
theorem fetches_of_fetch {s : State} {i : Instr} (h : fetch s = .ok i) : fetches s i := by
  rw [fetch_eq] at h
  split at h
  · cases h
  · next hip =>
    refine ⟨by omega, ?_⟩
    cases hd : decode (wordAtIp s) with
    | ok j => rw [hd] at h; simpa using h
    | error e => rw [hd] at h; cases h

theorem step_ready {s : State} (h : s.runState = .ready) : step s = .next { s with runState := .running } := by
  simp [step, h, stepReady, beginRun]

theorem step_halted {s : State} (h : s.runState = .halted) : step s = .next s := by
  simp [step, h, stepHalted]

theorem step_faulted {s : State} (h : s.runState = .faulted) : step s = .fault (.faulted s.faultCause) := by
  simp [step, h, stepFaulted]

/-- A RUNNING step: the meaning of the fetched instruction, or the fault of the fetch. -/
theorem step_running {s : State} (h : s.runState = .running) :
    step s = match fetch s with
      | .ok i => exec i s
      | .error c => .next (faultedState c s) := by
  simp only [step, h]
  cases fetch s <;> rfl

end Sys2Proof.Machine
end

