-- ==== Sys2Proof/Laws/Exec.lean ====
section
/-! SUPPORT. Everything an instruction and a step can do, said once: the fault that comes first, or the one commit. -/

namespace Sys2Proof.Machine

open Sys2Proof.Safety

/-- The state an instruction commits when it completes. -/
def commitOf (i : Instr) (s : State) : State :=
  match i with
  | .add m0 m1 m2 => advance (setCell s (targetOf s 2 m2).toNat (valueOf s 0 m0 + valueOf s 1 m1)) 3
  | .multiply m0 m1 m2 => advance (setCell s (targetOf s 2 m2).toNat (valueOf s 0 m0 * valueOf s 1 m1)) 3
  | .input m0 => advance (setCell { s with inq := s.inq.tail } (targetOf s 0 m0).toNat (s.inq.headD 0)) 1
  | .output m0 => advance (outPush s (valueOf s 0 m0)) 1
  | .jumpIfTrue m0 m1 => if valueOf s 0 m0 ≠ 0 then setIp s (valueOf s 1 m1) else advance s 2
  | .jumpIfFalse m0 m1 => if valueOf s 0 m0 = 0 then setIp s (valueOf s 1 m1) else advance s 2
  | .lessThan m0 m1 m2 =>
    advance (setCell s (targetOf s 2 m2).toNat (lessThanWord (valueOf s 0 m0) (valueOf s 1 m1))) 3
  | .equals m0 m1 m2 =>
    advance (setCell s (targetOf s 2 m2).toNat (equalsWord (valueOf s 0 m0) (valueOf s 1 m1))) 3
  | .adjustRelativeBase m0 => advance (addToBase s (valueOf s 0 m0)) 1
  | .halt => haltRun s

/-- The fault executing a fetched instruction takes, if any. -/
def faultOf (i : Instr) (s : State) : Option FaultCause :=
  if i.wellFormed = false then some .invalidInstruction
  else if allInRange s 0 i.params = false then some .invalidAddress
  else if starved i s then some .inputExhausted
  else none

theorem faultOf_eq_none {i : Instr} {s : State} : faultOf i s = none ↔ completes i s := by
  unfold faultOf completes
  by_cases h1 : i.wellFormed <;> by_cases h2 : allInRange s 0 i.params <;> by_cases h3 : starved i s <;>
    simp [h1, h2, h3]

/-- Every instruction, in full: its first fault, or its commit. -/
theorem exec_eq (i : Instr) (s : State) (h : 0 ≤ s.ip) :
    exec i s = match faultOf i s with
      | some c => .next (faultedState c s)
      | none => .next (commitOf i s) := by
  cases i with
  | add m0 m1 m2 | multiply m0 m1 m2 | lessThan m0 m1 m2 | equals m0 m1 m2 =>
    simp only [exec, execAdd, execMultiply, execLessThan, execEquals, storeBinary_eq _ _ _ _ _ h]
    by_cases h2 : m2 = .immediate
    · subst h2; simp [faultOf, Instr.wellFormed, Instr.params, Mode.legalFor]
    · by_cases r0 : inRange s 0 m0 <;> by_cases r1 : inRange s 1 m1 <;> by_cases r2 : inRange s 2 m2 <;>
        simp [faultOf, Instr.wellFormed, Instr.params, allInRange, starved, Instr.opcode, commitOf, h2,
          r0, r1, r2, Mode.legalFor]
  | input m0 =>
    simp only [exec, execInput_eq _ _ h]
    by_cases h2 : m0 = .immediate
    · subst h2; simp [faultOf, Instr.wellFormed, Instr.params, Mode.legalFor]
    · by_cases r0 : inRange s 0 m0 <;> cases hq : s.inq <;>
        simp [faultOf, Instr.wellFormed, Instr.params, allInRange, starved, Instr.opcode, commitOf, h2,
          r0, hq, Mode.legalFor]
  | output m0 =>
    simp only [exec, execOutput_eq _ _ h]
    by_cases r0 : inRange s 0 m0 <;>
      simp [faultOf, Instr.wellFormed, Instr.params, allInRange, starved, Instr.opcode, commitOf, r0, Mode.legalFor]
  | adjustRelativeBase m0 =>
    simp only [exec, execAdjustRelativeBase_eq _ _ h]
    by_cases r0 : inRange s 0 m0 <;>
      simp [faultOf, Instr.wellFormed, Instr.params, allInRange, starved, Instr.opcode, commitOf, r0, Mode.legalFor]
  | jumpIfTrue m0 m1 =>
    simp only [exec, execJumpIfTrue, jumpWhen_eq _ _ _ _ h]
    by_cases r0 : inRange s 0 m0 <;> by_cases r1 : inRange s 1 m1 <;>
      simp [faultOf, Instr.wellFormed, Instr.params, allInRange, starved, Instr.opcode, commitOf, r0, r1,
        Mode.legalFor, isNonZero]
  | jumpIfFalse m0 m1 =>
    simp only [exec, execJumpIfFalse, jumpWhen_eq _ _ _ _ h]
    by_cases r0 : inRange s 0 m0 <;> by_cases r1 : inRange s 1 m1 <;>
      simp [faultOf, Instr.wellFormed, Instr.params, allInRange, starved, Instr.opcode, commitOf, r0, r1,
        Mode.legalFor, isNonZero]
  | halt => simp [exec, execHalt, faultOf, Instr.wellFormed, Instr.params, allInRange, starved, Instr.opcode, commitOf]

/-- What a RUNNING step can do: commit the fetched instruction, or take the first fault. -/
theorem step_running_cases {s t : State} (hr : s.runState = .running) (h : step s = .next t) :
    (∃ i, fetches s i ∧ completes i s ∧ t = commitOf i s) ∨
    ∃ c, t = faultedState c s ∧
      ((fetch s = .error c) ∨ ∃ i, fetches s i ∧ faultOf i s = some c) := by
  rw [step_running hr] at h
  cases hf : fetch s with
  | error c =>
    rw [hf] at h
    cases h
    exact .inr ⟨c, rfl, .inl rfl⟩
  | ok i =>
    have hi := fetches_of_fetch hf
    rw [hf] at h
    simp only [exec_eq i s hi.1] at h
    cases ho : faultOf i s with
    | none =>
      rw [ho] at h
      cases h
      exact .inl ⟨i, hi, faultOf_eq_none.1 ho, rfl⟩
    | some c =>
      rw [ho] at h
      cases h
      exact .inr ⟨c, rfl, .inr ⟨i, hi, ho⟩⟩

end Sys2Proof.Machine
end

