-- ==== Sys2Proof/Laws/Limits.lean ====
section
/-! SUPPORT. What the checks of the limited machine say, and what its step and its inspection answer. -/

namespace Sys2Proof.Machine

/-- The check of WORD_BITS: the bounds, where a width is set. -/
theorem wordFits_iff (l : Config.Limits) (v : Int) :
    wordFits l v = true ↔ ∀ n, l.wordBits = some n → -(2 : Int) ^ (n - 1) ≤ v ∧ v ≤ 2 ^ (n - 1) - 1 := by
  cases h : l.wordBits <;> simp [wordFits, h]

/-- The check of MEM_LIMIT. -/
theorem addrFits_iff (l : Config.Limits) (a : Int) :
    addrFits l a = true ↔ ∀ top, l.memLimit = some top → a ≤ (top : Int) := by
  cases h : l.memLimit <;> simp [addrFits, h]

/-- The check of a capacity. -/
theorem lengthFits_iff (depth : Option Nat) (n : Nat) :
    lengthFits depth n = true ↔ ∀ d, depth = some d → n ≤ d := by
  cases depth <;> simp [lengthFits]

/-- The check of the addresses an image loads. -/
theorem imageAddressesFit_iff (fits : Int → Bool) (image : List Int) :
    imageAddressesFit fits image = true ↔ ∀ k : Nat, k < image.length → fits k = true := by
  simp [imageAddressesFit]

/-- A RUNNING step the limits let through: the machine's own, every check passed. -/
theorem stepWithin_running_next {l : Config.Limits} {s t : State} (hr : s.runState = .running)
    (h : stepWithin l s = .next t) :
    step s = .next t ∧ (∀ x ∈ stepAccesses s, addrFits l (accessAddr x) = true ∧ wordFits l (accessAddr x) = true) ∧
      (∀ a ∈ stepFormed s, wordFits l a = true) ∧ stateFits l t = true ∧ lengthFits l.outDepth t.out.length = true := by
  simp only [stepWithin, hr] at h
  split at h <;> [cases h; rename_i hAddr]
  split at h <;> [cases h; rename_i hWord]
  split at h <;> [cases h; rename_i hFormed]
  cases hs : step s <;> rw [hs] at h <;> simp only [reduceCtorEq] at h
  split at h <;> [cases h; rename_i hState]
  split at h <;> [cases h; rename_i hOut]
  cases h
  simp only [Bool.not_eq_false, List.all_eq_true] at hAddr hWord hFormed hState hOut
  exact ⟨rfl, fun x hx => ⟨hAddr x hx, hWord x hx⟩, hFormed, hState, hOut⟩

/-- A parameter walk that no address ends forms `next_ip` (41 R86). -/
theorem nextIp_mem_paramFormed (s : State) : ∀ (ps : List (Role × Mode)) (k : Nat),
    (∀ j p, ps[j]? = some p → p.2 = .immediate ∨
      0 ≤ formAddress s p.2 (s.mem.read (s.ip + 1 + (k + j : Nat)).toNat)) →
    nextIp s (k + ps.length) ∈ paramFormed s k ps
  | [], k, _ => by simp [paramFormed]
  | (r, m) :: rest, k, h => by
    have hrest := nextIp_mem_paramFormed s rest (k + 1) (fun j p hp => by
      have := h (j + 1) p (by simpa using hp)
      rwa [show k + (j + 1) = k + 1 + j by omega] at this)
    have hlen : k + ((r, m) :: rest).length = k + 1 + rest.length := by simp; omega
    have hfirst := h 0 (r, m) rfl
    rw [hlen]
    cases m <;> simp only [paramFormed, Nat.add_zero, reduceCtorEq, false_or] at hfirst ⊢
    · exact List.mem_cons_of_mem _ (by rw [if_neg (by omega)]; exact hrest)
    · exact hrest
    · exact List.mem_cons_of_mem _ (by rw [if_neg (by omega)]; exact hrest)

end Sys2Proof.Machine
end

