-- ==== Sys2Proof/Laws/PerInstr.lean ====
section
/-! SUPPORT. The per-instruction family: what holds of each instruction as syntax, one lemma per constructor. -/

namespace Sys2Proof.Laws.ParamShape

/-- The parameter list has the fixed count of its operation (R52, R74), at most one parameter is an address, and an
address comes last (R52: V V A, A, V, V V, none). -/
def Statement (i : Instr) : Prop :=
  i.params.length = i.paramCount ∧ (i.params.dropLast.all fun p => p.1 = .value) = true

theorem add (m0 m1 m2 : Mode) : Statement (.add m0 m1 m2) := ⟨rfl, rfl⟩
theorem multiply (m0 m1 m2 : Mode) : Statement (.multiply m0 m1 m2) := ⟨rfl, rfl⟩
theorem input (m0 : Mode) : Statement (.input m0) := ⟨rfl, rfl⟩
theorem output (m0 : Mode) : Statement (.output m0) := ⟨rfl, rfl⟩
theorem jumpIfTrue (m0 m1 : Mode) : Statement (.jumpIfTrue m0 m1) := ⟨rfl, rfl⟩
theorem jumpIfFalse (m0 m1 : Mode) : Statement (.jumpIfFalse m0 m1) := ⟨rfl, rfl⟩
theorem lessThan (m0 m1 m2 : Mode) : Statement (.lessThan m0 m1 m2) := ⟨rfl, rfl⟩
theorem equals (m0 m1 m2 : Mode) : Statement (.equals m0 m1 m2) := ⟨rfl, rfl⟩
theorem adjustRelativeBase (m0 : Mode) : Statement (.adjustRelativeBase m0) := ⟨rfl, rfl⟩
theorem halt : Statement .halt := ⟨rfl, rfl⟩

end Sys2Proof.Laws.ParamShape
end

