-- ==== Sys2Proof/Tests/Slice0.lean ====
section
/-! SUPPORT. The model's own tests: ill-formed terms, decoding of words written out from the spec, one step per
instruction from the spec's examples, and for each statement with hypotheses a state and operands that meet them. -/

namespace Sys2Proof.Tests

open Sys2Proof.Machine Sys2Proof.Safety

/-- The state an outcome answers, if any. -/
def answer (r : Result) : Option State :=
  match r with
  | .next t => some t
  | .fault _ => none
  | .refused _ => none

/-- A constructed engine after `run`, about to fetch at address 0. -/
def started (image inputs : List Int) : State := { construct image inputs with runState := .running }

/-- The cell `a` after one step. -/
def cellAfter (s : State) (a : Nat) : Option Int := (answer (step s)).map fun t => t.mem.read a

/-- The instruction pointer after one step. -/
def ipAfterStep (s : State) : Option Int := (answer (step s)).map State.ip

/-- The status after one step. -/
def statusAfter (s : State) : Option (RunState × Option FaultCause) :=
  (answer (step s)).map fun t => (t.runState, t.faultCause)

/-! ### WellFormed: the one check of R89, an ill-formed term for each operation that has an address parameter -/

theorem test_ill_formed_add : (Instr.add .position .position .immediate).wellFormed = false := by decide
theorem test_ill_formed_multiply : (Instr.multiply .relative .position .immediate).wellFormed = false := by decide
theorem test_ill_formed_input : (Instr.input .immediate).wellFormed = false := by decide
theorem test_ill_formed_lessThan : (Instr.lessThan .immediate .immediate .immediate).wellFormed = false := by decide
theorem test_ill_formed_equals : (Instr.equals .position .immediate .immediate).wellFormed = false := by decide
theorem test_well_formed_values :
    (Instr.output .immediate).wellFormed = true ∧ (Instr.jumpIfTrue .immediate .immediate).wellFormed = true ∧
    (Instr.jumpIfFalse .immediate .immediate).wellFormed = true ∧
    (Instr.adjustRelativeBase .immediate).wellFormed = true ∧
    (Instr.add .immediate .immediate .relative).wellFormed = true := by decide

/-! ### Decoding: words written out from R51 (ten-thousands M2, thousands M1, hundreds M0, the rest OP) and R52 -/

theorem test_decode_add : decode (20000 + 1000 + 200 + 1) = .ok (.add .relative .immediate .relative) := by decide
theorem test_decode_multiply : decode (0 + 1000 + 0 + 2) = .ok (.multiply .position .immediate .position) := by decide
theorem test_decode_input : decode (200 + 3) = .ok (.input .relative) := by decide
theorem test_decode_output : decode (100 + 4) = .ok (.output .immediate) := by decide
theorem test_decode_jumpIfTrue : decode (2000 + 100 + 5) = .ok (.jumpIfTrue .immediate .relative) := by decide
theorem test_decode_jumpIfFalse : decode (1000 + 0 + 6) = .ok (.jumpIfFalse .position .immediate) := by decide
theorem test_decode_lessThan : decode (20000 + 0 + 0 + 7) = .ok (.lessThan .position .position .relative) := by decide
theorem test_decode_equals : decode (0 + 1000 + 100 + 8) = .ok (.equals .immediate .immediate .position) := by decide
theorem test_decode_adjustRelativeBase : decode (200 + 9) = .ok (.adjustRelativeBase .relative) := by decide
theorem test_decode_halt : decode 99 = .ok .halt := by decide

/-- R57: surplus digits. -/
theorem test_decode_surplus :
    decode 100001 = .ok (.add .position .position .position) ∧ decode 1104 = .ok (.output .immediate) ∧
    decode 7000002 = .ok (.multiply .position .position .position) ∧ decode 100099 = .error .unknownOpcode := by decide

/-- R56, R77: the three reasons. -/
theorem test_decode_failures :
    decode (-99) = .error .negativeWord ∧ decode 0 = .error .unknownOpcode ∧ decode 199 = .error .unknownOpcode ∧
    decode 301 = .error .badModeDigit ∧ decode 30001 = .error .badModeDigit := by decide

/-- R60: canonical words. -/
theorem test_encode :
    encode (.add .relative .immediate .relative) = 21201 ∧ encode (.jumpIfFalse .position .immediate) = 1006 ∧
    encode (.input .relative) = 203 ∧ encode .halt = 99 := by decide

/-- R61: `MUL [4], #3, [4]`, an address operand written `#k`, and a label used as a jump target. -/
theorem test_assemble :
    assemble (.mul (.cell 4) (.literal 3) (.cell 4)) = some [1002, 4, 3, 4] ∧
    assemble (.inp (.literal 0)) = none ∧
    assembleProgram [.line (.arb (.literal (.numeral 7))), .label "loop",
      .line (.jnz (.literal (.numeral 1)) (.literal (.named "loop")))] = some [109, 7, 1105, 1, 2] := by decide

theorem test_table_word : decodeTableWord 17 1002 = some (.multiply .position .immediate .position) := by decide

/-! ### One step of each instruction, from the spec's examples -/

/-- R110: `[1,0,0,0,99]` gives `[2,0,0,0,99]`, `ip` 0 to 4. -/
theorem test_add : cellAfter (started [1, 0, 0, 0, 99] []) 0 = some 2 ∧
    ipAfterStep (started [1, 0, 0, 0, 99] []) = some 4 := by decide
/-- R110: `1101,5,-8,0` writes −3. -/
theorem test_add_negative : cellAfter (started [1101, 5, -8, 0] []) 0 = some (-3) := by decide
/-- R111: `[1002,4,3,4,33]` gives 99 at address 4. -/
theorem test_multiply : cellAfter (started [1002, 4, 3, 4, 33] []) 4 = some 99 := by decide
/-- R111: (−3) × (−4) = 12. -/
theorem test_multiply_signs : cellAfter (started [1102, -3, -4, 7] []) 7 = some 12 := by decide
/-- R115, R116: `[3,0,4,0,99]` with input `[42]` stores 42 at address 0. -/
theorem test_input : cellAfter (started [3, 0, 4, 0, 99] [42]) 0 = some 42 ∧
    (answer (step (started [3, 0, 4, 0, 99] [42]))).map State.inq = some [] := by decide
/-- R94 (c): `[3,-1,99]` with an empty queue faults with InvalidAddress, not InputExhausted. -/
theorem test_input_address_first :
    statusAfter (started [3, -1, 99] []) = some (.faulted, some .invalidAddress) := by decide
/-- R116: `104,-5` appends −5. -/
theorem test_output : (answer (step (started [104, -5] []))).map State.out = some [-5] := by decide
/-- R93, R116: `204,-34` with `rb = 2000` reads address 1966. -/
theorem test_output_relative :
    (answer (step { started [204, -34] [] with rb := 2000, mem := [(0, 204), (1, -34), (1966, 5)] })).map State.out =
      some [5] := by decide
/-- R120: `[1105,1,4,99,104,7,99]` jumps to 4. -/
theorem test_jumpIfTrue : ipAfterStep (started [1105, 1, 4, 99, 104, 7, 99] []) = some 4 := by decide
/-- R120: with parameter 1 Position the target is the cell's value; a negative condition is true. -/
theorem test_jumpIfTrue_position : ipAfterStep (started [105, -1, 3, 17] []) = some 17 := by decide
/-- R94 (b): `[6,0,-1,99]` faults with InvalidAddress although no jump would occur. -/
theorem test_jumpIfFalse_resolves_target :
    statusAfter (started [6, 0, -1, 99] []) = some (.faulted, some .invalidAddress) := by decide
/-- R121: `1006,101,0` falls through when the cell is not 0. -/
theorem test_jumpIfFalse : ipAfterStep (started [1006, 0, 0] []) = some 3 ∧
    ipAfterStep (started [1006, 101, 7] []) = some 7 := by decide
/-- R125: `[1107,3,9,5,99,0]` writes 1. -/
theorem test_lessThan : cellAfter (started [1107, 3, 9, 5, 99, 0] []) 5 = some 1 := by decide
/-- R125: `[1107,9,3,5,99,7]` overwrites the 7 with 0. -/
theorem test_lessThan_false : cellAfter (started [1107, 9, 3, 5, 99, 7] []) 5 = some 0 := by decide
/-- R126: two unwritten cells are equal. -/
theorem test_equals : cellAfter (started [8, 50, 60, 5] []) 5 = some 1 := by decide
/-- R126: the destination is written with 0 when the operands differ. -/
theorem test_equals_false : cellAfter (started [1108, 1, 2, 4, 7] []) 4 = some 0 := by decide
/-- R130: `109,2000` makes `rb = 2000`. -/
theorem test_adjustRelativeBase :
    (answer (step (started [109, 2000, 204, -34, 99] []))).map State.rb = some 2000 := by decide
/-- R130: in Relative mode the operand is found with the old base. -/
theorem test_adjustRelativeBase_relative :
    (answer (step { started [209, 1, 7, 8] [] with rb := 2 })).map State.rb = some 10 := by decide
/-- R133: `[99]` halts, `ip` stays. -/
theorem test_halt : statusAfter (started [99] []) = some (.halted, none) ∧
    ipAfterStep (started [99] []) = some 0 := by decide
/-- R133: 199 is not Halt. -/
theorem test_halt_whole_word :
    statusAfter (started [199] []) = some (.faulted, some .invalidInstruction) := by decide

/-- R89, R146: an Immediate destination wins over a negative address of parameter 0. -/
theorem test_write_mode_first :
    statusAfter (started [10001, -1, 0, 0] []) = some (.faulted, some .invalidInstruction) := by decide
/-- R43: an Add that overwrites its own opcode word completes. -/
theorem test_self_overwrite : cellAfter (started [1101, 5, 6, 0] []) 0 = some 11 := by decide
/-- R32: writing 0 leaves no cell behind. -/
theorem test_write_zero : (Memory.write [(3, 7)] 3 0) = [] ∧ (Memory.write [(3, 7)] 1 2) = [(1, 2), (3, 7)] := by decide

/-- The first step after placing an opcode word at reset runs it (log 4, log 27): Halt, and Add over parameter words 0. -/
theorem test_withFetchWord :
    statusAfter (State.reset.withFetchWord 17 99) = some (.halted, none) ∧
    cellAfter (State.reset.withFetchWord 17 1) 0 = some 2 ∧
    ipAfterStep (State.reset.withFetchWord 17 1) = some 4 := by decide

/-! ### Witnesses: for each statement with hypotheses, a state and operands that meet them -/

theorem witness_ParameterCountIsFixed : decode 1002 = .ok (.multiply .position .immediate .position) := by decide
theorem witness_SurplusDigitsAreIgnored :
    Instr.add .position .position .position ≠ .halt ∧
    decode 1 = .ok (.add .position .position .position) ∧ 0 < 1 := by decide
theorem witness_DecoderPortsShowTheDecode :
    decode 21201 = .ok (.add .relative .immediate .relative) ∧
    (Instr.add .relative .immediate .relative).modes[0]? = some .relative ∧
    (Instr.add .relative .immediate .relative).modes[1]? = some .immediate ∧
    (Instr.add .relative .immediate .relative).modes[2]? = some .relative ∧
    decode 99 = .ok .halt ∧ decode (-1) = .error .negativeWord := by decide
theorem witness_AssembledWordsOfEveryLine :
    asmMode (.cell (5 : Int)) ≠ .immediate ∧ asmMode (.based (-1 : Int)) ≠ .immediate ∧
    asmMode (.literal (0 : Int)) = .immediate := by decide
theorem witness_ReadsAnswerTheLatestWrite :
    (-1 : Int) < 0 ∧ memWrite State.reset 0 7 = .ok (setCell State.reset 0 7) ∧ (0 : Int) ≤ 0 ∧ (0 : Int) ≤ 1 := by
  decide
theorem witness_WritesChangeOneCell :
    (-1 : Int) < 0 ∧ (0 : Int) ≤ 0 ∧ State.reset.mem.wf = true ∧ State.reset.mem.read 0 = 0 ∧
    resolveAddress State.reset 0 .position = .ok 0 := by decide
theorem witness_CanonicalMemoryIsItsReads :
    Memory.wf [(0, 1), (7, -2)] = true ∧ Memory.wf (Memory.load [] 0 [1, 0, 0, 0, 0, 0, 0, -2]) = true ∧
    ∀ a : Nat, Memory.read [(0, 1), (7, -2)] a = Memory.read (Memory.load [] 0 [1, 0, 0, 0, 0, 0, 0, -2]) a :=
  ⟨by decide, by decide, fun _ => rfl⟩
/-- A halted engine with a range from 0, an empty range, and ranges that include −1. -/
theorem witness_InspectionAnswersTheRange :
    ({ State.reset with runState := .halted } : State).runState = .halted ∧
    ({ State.reset with runState := .faulted, faultCause := some .invalidAddress } : State).runState = .faulted ∧
    (0 : Int) ≤ 0 ∧ (-1 : Int) < 0 ∧ (-1 : Int) ≤ -1 ∧
    inspectMem { started [5, 6] [] with runState := .halted } 0 2 = some [5, 6, 0] ∧
    inspectMem { State.reset with runState := .halted } (-1) (-1) = none ∧
    inspectMem { State.reset with runState := .halted } 0 (-1) = some [] := by decide
theorem witness_NoInspectionDuringARun :
    State.reset.runState = .ready ∧ (started [] []).runState = .running := by decide
/-- Parameter words 0 and −1, in a base of 0. -/
theorem witness_ValueResolution :
    0 ≤ (started [4, 0] []).ip ∧ memRead (started [4, 0] []) (0 + 1 + 0) = .ok 0 ∧
    memRead (started [4, -1] []) (0 + 1 + 0) = .ok (-1) := by decide
theorem witness_AddressResolution :
    0 ≤ (started [3, 0] []).ip ∧ memRead (started [3, 0] []) (0 + 1 + 0) = .ok 0 ∧
    memRead { started [203, -3] [] with rb := 3 } (0 + 1 + 0) = .ok (-3) ∧
    memRead { started [203, -4] [] with rb := 3 } (0 + 1 + 0) = .ok (-4) := by decide

/-- For AddWritesTheSum, MultiplyWritesTheProduct, LessThanWritesTheTruthWord and EqualsWritesTheTruthWord: destination
0, destination −1, operand −1. -/
theorem witness_of_the_four_stores :
    completes (.add .immediate .immediate .position) (started [1101, 5, -8, 0] []) ∧
    completes (.multiply .immediate .immediate .position) (started [1102, 5, -8, 0] []) ∧
    completes (.lessThan .immediate .immediate .position) (started [1107, 5, -8, 0] []) ∧
    completes (.equals .immediate .immediate .position) (started [1108, 5, -8, 0] []) ∧
    0 ≤ (started [1101, 5, -8, 0] []).ip ∧ targetOf (started [1101, 5, -8, 0] []) 2 .position = 0 ∧
    ¬ (inRange (started [1101, 5, -8, -1] []) 0 .immediate ∧ inRange (started [1101, 5, -8, -1] []) 1 .immediate ∧
      inRange (started [1101, 5, -8, -1] []) 2 .position) ∧
    ¬ (inRange (started [1, -1, 0, 0] []) 0 .position ∧ inRange (started [1, -1, 0, 0] []) 1 .position ∧
      inRange (started [1, -1, 0, 0] []) 2 .position) := by decide
/-- An Input with an element and destination 0, one with destination −1, one with an empty queue. -/
theorem witness_InputPopsIntoMemory :
    completes (.input .position) (started [3, 0] [42]) ∧ (started [3, 0] [42]).inq = 42 :: [] ∧
    Mode.position ≠ .immediate ∧ ¬ inRange (started [3, -1] [42]) 0 .position ∧
    inRange (started [3, 0] []) 0 .position ∧ (started [3, 0] []).inq = [] := by decide
theorem witness_OutputAppendsTheValue :
    0 ≤ (started [4, 0] []).ip ∧ inRange (started [4, 0] []) 0 .position ∧ inRange (started [104, -5] []) 0 .immediate ∧
    ¬ inRange (started [4, -1] []) 0 .position := by decide
/-- For JumpIfTrueJumpsOnNonZero and JumpIfFalseJumpsOnZero: both conditions, a target in range and one out of range. -/
theorem witness_of_the_jumps :
    0 ≤ (started [1105, 1, 4] []).ip ∧ inRange (started [1105, 1, 4] []) 0 .immediate ∧
    inRange (started [1105, 1, 4] []) 1 .immediate ∧ valueOf (started [1105, 1, 4] []) 0 .immediate ≠ 0 ∧
    valueOf (started [1105, 0, 4] []) 0 .immediate = 0 ∧
    ¬ (inRange (started [6, 0, -1, 99] []) 0 .position ∧ inRange (started [6, 0, -1, 99] []) 1 .position) := by decide
theorem witness_JumpIfFalseJumpsOnZero :
    (∃ t f, exec (.jumpIfTrue .immediate .immediate) (started [1105, 1, 4] []) = .next t ∧
      exec (.jumpIfFalse .immediate .immediate) (started [1105, 1, 4] []) = .next f) ∧
    valueOf (started [1105, 1, 4] []) 1 .immediate ≠ (started [1105, 1, 4] []).ip + 3 :=
  ⟨⟨_, _, rfl, rfl⟩, by decide⟩
theorem witness_AdjustRelativeBaseAdds :
    0 ≤ (started [9, 0] []).ip ∧ inRange (started [9, 0] []) 0 .position ∧ ¬ inRange (started [9, -1] []) 0 .position ∧
    ¬ inRange { started [209, 0] [] with rb := -1 } 0 .relative := by decide
theorem witness_HaltStopsTheRun :
    (∃ t, exec .halt (started [99] []) = .next t ∧ (started [99] []).runState ≠ .halted ∧ t.runState = .halted) ∧
    (∃ t, step (started [99] []) = .next t ∧ t.runState = .halted) ∧
    (started [99] []).runState = .running ∧ 0 ≤ (started [99] []).ip ∧ wordAtIp (started [99] []) = 99 :=
  ⟨⟨_, rfl, by decide, rfl⟩, ⟨_, rfl, rfl⟩, by decide⟩
/-- 3 < 9, and the state with the two parameters swapped; each of the three instructions answers a state. -/
theorem witness_ComparisonsAreTrichotomous :
    0 ≤ (started [1107, 3, 9, 5] []).ip ∧ 0 ≤ (started [1107, 9, 3, 5] []).ip ∧
    completes (.lessThan .immediate .immediate .position) (started [1107, 3, 9, 5] []) ∧
    completes (.equals .immediate .immediate .position) (started [1107, 3, 9, 5] []) ∧
    completes (.lessThan .immediate .immediate .position) (started [1107, 9, 3, 5] []) ∧
    valueOf (started [1107, 9, 3, 5] []) 0 .immediate = valueOf (started [1107, 3, 9, 5] []) 1 .immediate ∧
    valueOf (started [1107, 9, 3, 5] []) 1 .immediate = valueOf (started [1107, 3, 9, 5] []) 0 .immediate := by decide
theorem witness_ComparisonsAnswer :
    (∃ t, exec (.lessThan .immediate .immediate .position) (started [1107, 3, 9, 5] []) = .next t) ∧
    (∃ t, exec (.equals .immediate .immediate .position) (started [1107, 3, 9, 5] []) = .next t) ∧
    ∃ t, exec (.lessThan .immediate .immediate .position) (started [1107, 9, 3, 5] []) = .next t :=
  ⟨⟨_, rfl⟩, ⟨_, rfl⟩, ⟨_, rfl⟩⟩

/-- The two cases of a destination: an address, and a fault of its resolution. -/
theorem witness_FrameOfTheFourStores :
    (∃ t, exec (.add .immediate .immediate .position) (started [1101, 1, 2, 0] []) = .next t) ∧
    resolveAddress (started [1101, 1, 2, 0] []) 2 .position = .ok 0 ∧
    resolveAddress (started [1101, 1, 2, -1] []) 2 .position = .error .invalidAddress :=
  ⟨⟨_, rfl⟩, by decide, by decide⟩
theorem witness_FrameOfInput :
    (∃ t, exec (.input .position) (started [3, 0] [42]) = .next t) ∧
    resolveAddress (started [3, 0] [42]) 0 .position = .ok 0 ∧
    resolveAddress (started [3, -1] [42]) 0 .position = .error .invalidAddress :=
  ⟨⟨_, rfl⟩, by decide, by decide⟩
theorem witness_FrameWithoutAStore :
    (∃ t, exec (.output .immediate) (started [104, 1] []) = .next t) ∧
    (∃ t, exec (.jumpIfTrue .immediate .immediate) (started [1105, 1, 4] []) = .next t) ∧
    (∃ t, exec (.jumpIfFalse .immediate .immediate) (started [1106, 1, 4] []) = .next t) ∧
    (∃ t, exec (.adjustRelativeBase .immediate) (started [109, 1] []) = .next t) ∧
    ∃ t, exec .halt (started [99] []) = .next t :=
  ⟨⟨_, rfl⟩, ⟨_, rfl⟩, ⟨_, rfl⟩, ⟨_, rfl⟩, ⟨_, rfl⟩⟩

/-- For StepRunsTheDecodedInstruction and FailedFetchFaults: a state that fetches an Add at address 0, one whose `ip` is
−1, one whose word does not decode. -/
theorem witness_of_the_fetch :
    (started [1101, 1, 2, 0] []).runState = .running ∧
    fetches (started [1101, 1, 2, 0] []) (.add .immediate .immediate .position) ∧
    ({ started [] [] with ip := -1 } : State).runState = .running ∧ ({ started [] [] with ip := -1 } : State).ip < 0 ∧
    (started [] []).runState = .running ∧
    0 ≤ (started [] []).ip ∧ decode (wordAtIp (started [] [])) = .error .unknownOpcode := by decide
theorem witness_RunBeginsFromReady : State.reset.runState = .ready := by decide
theorem witness_TerminalStatesAreNeverLeft :
    ({ State.reset with runState := .halted } : State).runState = .halted ∧
    ({ State.reset with runState := .faulted } : State).runState = .faulted := by decide
/-- For RunStateTransitions and EveryStepAnswersAState: a step from each status that has a next state. -/
theorem witness_of_a_step :
    (∃ t, step State.reset = .next t) ∧ (∃ t, step (started [99] []) = .next t) ∧
    (∃ t, step (started [104, 7] []) = .next t) ∧
    ∃ t, step { State.reset with runState := .halted } = .next t :=
  ⟨⟨_, rfl⟩, ⟨_, rfl⟩, ⟨_, rfl⟩, ⟨_, rfl⟩⟩
/-- For FirstFaultIsTaken, InvalidInstructionExactly, InvalidAddressExactly and InputExhaustedExactly: a RUNNING state
for each place in the fixed order of R146, and one without a fault. -/
theorem witness_FirstFaultIsTaken :
    firstFault { started [] [] with ip := -1 } = some .invalidAddress ∧
    firstFault (started [0] []) = some .invalidInstruction ∧
    firstFault (started [103, -1] []) = some .invalidInstruction ∧
    firstFault (started [3, -1] []) = some .invalidAddress ∧
    firstFault (started [3, 0] []) = some .inputExhausted ∧
    firstFault (started [3, 0] [1]) = none ∧ (started [3, 0] [1]).runState = .running ∧
    faultsWith (step (started [3, 0] [])) .inputExhausted :=
  ⟨by decide, by decide, by decide, by decide, by decide, by decide, rfl, _, rfl, rfl, rfl⟩
theorem witness_FaultsArePrecise :
    ∃ t, step (started [3, 0] []) = .next t ∧ t.runState = .faulted := ⟨_, rfl, rfl⟩
theorem witness_HaltedExactlyBy99 :
    (started [99] []).runState = .running ∧ (∃ t, step (started [99] []) = .next t ∧ t.runState = .halted) :=
  ⟨rfl, _, rfl, rfl⟩
/-- A jump taken, one not taken, a fault, and an instruction that is no jump. -/
theorem witness_InstructionPointerTable :
    (∃ t, step (started [1105, 1, 0] []) = .next t ∧ t.runState ≠ .faulted) ∧
    fetches (started [1105, 1, 0] []) (.jumpIfTrue .immediate .immediate) ∧
    (∃ t, step (started [6, 0, -1] []) = .next t ∧ t.runState = .faulted) ∧
    fetches (started [6, 0, -1] []) (.jumpIfFalse .position .position) ∧
    (∃ t, step (started [104, 1] []) = .next t ∧ t.runState ≠ .faulted) ∧
    fetches (started [104, 1] []) (.output .immediate) :=
  ⟨⟨_, rfl, by decide⟩, by decide, ⟨_, rfl, rfl⟩, by decide, ⟨_, rfl, by decide⟩, by decide⟩
theorem witness_BaseChangesOnlyByItsInstruction :
    ∃ t, step (started [109, 7] []) = .next t ∧ t.rb ≠ (started [109, 7] []).rb := ⟨_, rfl, by decide⟩
theorem witness_InputQueueOnlyPops :
    ∃ t, step (started [3, 0] [42]) = .next t ∧ t.inq ≠ (started [3, 0] [42]).inq := ⟨_, rfl, by decide⟩
theorem witness_OutputLogOnlyGrows :
    ∃ t, step (started [104, 7] []) = .next t ∧ t.out ≠ (started [104, 7] []).out := ⟨_, rfl, by decide⟩
/-- An Input that writes cell 0: cell 1 is outside its write, cell 0 inside. -/
theorem witness_MemoryChangesOnlyWhereWritten :
    (∃ t, step (started [3, 0] [42]) = .next t) ∧ Access.write 0 ∈ stepAccesses (started [3, 0] [42]) ∧
    ¬ ((started [3, 0] [42]).runState = .running ∧ Access.write (1 : Nat) ∈ stepAccesses (started [3, 0] [42])) :=
  ⟨⟨_, rfl⟩, by decide, by decide⟩
/-- `99 + 0` written over the word after the Add. -/
theorem witness_StoreIsSeenByTheNextFetch :
    (started [1101, 99, 0, 4, 1] []).runState = .running ∧
    fetches (started [1101, 99, 0, 4, 1] []) (.add .immediate .immediate .position) ∧
    completes (.add .immediate .immediate .position) (started [1101, 99, 0, 4, 1] []) ∧
    targetOf (started [1101, 99, 0, 4, 1] []) 2 .position = (started [1101, 99, 0, 4, 1] []).ip + 4 ∧
    decode (valueOf (started [1101, 99, 0, 4, 1] []) 0 .immediate + valueOf (started [1101, 99, 0, 4, 1] []) 1 .immediate)
      = .ok .halt := by decide
/-- An Output reads cells 0 and 1; the second memory differs in cell 2, which the step does not read. -/
theorem witness_ReadCellsDetermineTheStep :
    (started [104, 7, 1] []).runState = .running ∧
    (∀ a : Nat, Access.read a ∈ stepAccesses (started [104, 7, 1] []) →
      Memory.read [(0, 104), (1, 7), (2, 5)] a = (started [104, 7, 1] []).mem.read a) ∧
    (∃ t, step (started [104, 7, 1] []) = .next t) ∧
    ∃ t, step { started [104, 7, 1] [] with mem := [(0, 104), (1, 7), (2, 5)] } = .next t := by
  refine ⟨rfl, ?_, ⟨_, rfl⟩, ⟨_, rfl⟩⟩
  intro a h
  have hs : stepAccesses (started [104, 7, 1] []) = [.read 0, .read 1] := by decide
  rw [hs] at h
  have : a = 0 ∨ a = 1 := by
    simp at h
    omega
  rcases this with rfl | rfl <;> rfl
theorem witness_EveryStepKeepsGood :
    good (started [104, 7] []) ∧ good (afterFault .inputExhausted (started [3, 0] [])) ∧
    ∃ t, step (started [104, 7] []) = .next t := ⟨by decide, by decide, _, rfl⟩
/-- Limits that a step meets (8-bit Words, MEM_LIMIT 1, OUT_DEPTH 1), and one Word they refuse. -/
theorem witness_LimitsOnlyRefuse :
    (started [104, 127] []).runState = .running ∧
    (∃ t, stepWithin ⟨some 8, some 1, some 0, some 1⟩ (started [104, 127] []) = .next t) ∧
    fetches (started [104, 127] []) (.output .immediate) ∧ (Instr.output .immediate).wellFormed = true ∧
    allInRange (started [104, 127] []) 0 (Instr.output .immediate).params = true ∧
    stepWithin ⟨some 8, some 1, some 0, some 1⟩ (started [104, 128] []) = .refused .wordRange ∧
    stepWithin ⟨some 9, some 1, some 0, some 0⟩ (started [104, 128] []) = .refused .outputDepth ∧
    stepWithin ⟨none, some 0, none, none⟩ (started [104, 128] []) = .refused .memLimit :=
  ⟨rfl, ⟨_, rfl⟩, by decide, rfl, rfl, rfl, rfl, rfl⟩
/-- R86, R120: a taken jump at 125 and an Input without an element at 126 form the next ip 128, refused with 8-bit Words
and formed within 9-bit ones. -/
theorem test_discarded_nextIp :
    stepWithin ⟨some 8, none, none, none⟩ { started [] [] with ip := 125, mem := [(0, 4), (125, 105), (126, 1)] } =
      .refused .wordRange ∧
    stepWithin ⟨some 8, none, none, none⟩ { started [] [] with ip := 126, mem := [(126, 3), (127, 4)] } =
      .refused .wordRange ∧
    (answer (stepWithin ⟨some 9, none, none, none⟩
      { started [] [] with ip := 125, mem := [(0, 4), (125, 105), (126, 1)] })).map State.ip = some 4 ∧
    fetches { started [] [] with ip := 125, mem := [(0, 4), (125, 105), (126, 1)] }
      (.jumpIfTrue .immediate .position) ∧
    allInRange { started [] [] with ip := 125, mem := [(0, 4), (125, 105), (126, 1)] } 0
      (Instr.jumpIfTrue .immediate .position).params = true :=
  ⟨rfl, rfl, by decide, by decide, by decide⟩
/-- Halt forms no next ip: a 99 at the last address of 8-bit Words halts. -/
theorem test_halt_forms_nothing :
    (answer (stepWithin ⟨some 8, some 127, none, none⟩ { started [] [] with ip := 127, mem := [(127, 99)] })).map
      State.runState = some .halted := by decide
/-- For HostOperationsWithinLimits: three Words fill addresses 0 to 2 = MEM_LIMIT and a fourth does not fit; 3-bit Words
go to 3, so that a fifth image element has no address; a range up to the limit, one beyond it, an empty one beyond it. -/
theorem witness_HostOperationsWithinLimits :
    constructWithin ⟨none, some 2, some 1, none⟩ [1, 2, 3] [7] = .next (construct [1, 2, 3] [7]) ∧
    constructWithin ⟨none, some 2, some 1, none⟩ [1, 2, 3, 0] [7] = .refused .memLimit ∧
    constructWithin ⟨none, some 2, some 1, none⟩ [1, 2, 3] [7, 8] = .refused .inputDepth ∧
    constructWithin ⟨some 3, none, none, none⟩ [0, 0, 0, -4] [3] = .next (construct [0, 0, 0, -4] [3]) ∧
    constructWithin ⟨some 3, none, none, none⟩ [0, 0, 0, 0, 0] [] = .refused .wordRange ∧
    constructWithin ⟨some 3, none, none, none⟩ [4] [] = .refused .wordRange ∧
    inspectMemWithin ⟨none, some 2, none, none⟩ { started [5, 6] [] with runState := .halted } 0 2 = some [5, 6, 0] ∧
    inspectMemWithin ⟨none, some 2, none, none⟩ { started [5, 6] [] with runState := .halted } 0 3 = none ∧
    inspectMemWithin ⟨some 3, none, none, none⟩ { started [5, 6] [] with runState := .halted } 3 4 = none ∧
    inspectMemWithin ⟨none, some 2, none, none⟩ { started [5, 6] [] with runState := .halted } 9 8 = some [] :=
  ⟨rfl, rfl, rfl, rfl, rfl, rfl, rfl, rfl, rfl, rfl⟩
theorem witness_PhasesRefineTheStep :
    (atFetch (started [1, 0, 0, 0] [])).phase = .fetch ∧
    (atFetch (started [1, 0, 0, 0] [])).arch.runState = .running ∧
    (ticks 9 (atFetch (started [1, 0, 0, 0] []))).arch.mem.read 0 = 2 := by decide

end Sys2Proof.Tests
end

section
/-! PROOFS. Memory (spec/20_memory.md): what a read answers, and what a write changes. -/

namespace Sys2Proof.Machine

/-- The canonical form lists no address whose cell reads 0 (log 2). -/
theorem Memory.read_ne_zero_of_mem {m : Memory} (h : m.wf = true) {c : Nat × Int} (hc : c ∈ m) :
    m.read c.1 ≠ 0 := by
  induction m with
  | nil => simp at hc
  | cons d m ih =>
    obtain ⟨h0, hlt, hm⟩ := (Memory.wf_cons d m).1 h
    rw [Memory.read_cons]
    rcases List.mem_cons.1 hc with rfl | hc
    · simpa using h0
    · rw [if_neg (hlt c hc).ne]
      exact ih hm hc

/-- Writing 0 where a canonical memory reads 0 is no write (20 R32). -/
theorem Memory.write_zero_of_read_zero {m : Memory} {a : Nat} (h : m.wf = true) (ha : m.read a = 0) :
    m.write a 0 = m := by
  have habsent : ∀ c ∈ m, c.1 ≠ a := fun c hc hca => Memory.read_ne_zero_of_mem h hc (hca ▸ ha)
  rw [Memory.write, if_pos rfl, Memory.erase, List.filter_eq_self]
  exact fun c hc => bne_iff_ne.2 (habsent c hc)

/-- Every cell after construction: the image's element at its address, or 0 (70 R171). -/
theorem construct_mem_read (image inputs : List Int) (a : Nat) :
    (construct image inputs).mem.read a = image.getD a 0 := by
  rw [construct, Memory.read_load, if_pos a.zero_le, Nat.sub_zero, Memory.read_nil]

theorem memRead_of_neg (s : State) {a : Int} (h : a < 0) : memRead s a = .error .invalidAddress := by
  rw [memRead_eq, if_pos h]

theorem memRead_of_nonneg (s : State) {a : Int} (h : 0 ≤ a) : memRead s a = .ok (s.mem.read a.toNat) := by
  rw [memRead_eq, if_neg h.not_gt]

theorem memWrite_of_neg (s : State) {a : Int} (v : Int) (h : a < 0) :
    memWrite s a v = .error .invalidAddress := by
  rw [memWrite_eq, if_pos h]

theorem memWrite_of_nonneg (s : State) {a : Int} (v : Int) (h : 0 ≤ a) :
    memWrite s a v = .ok (setCell s a.toNat v) := by
  rw [memWrite_eq, if_neg h.not_gt]

/-- A write that answers a state had an address to write to, and wrote that one cell. -/
theorem memWrite_ok {s t : State} {a v : Int} (h : memWrite s a v = .ok t) :
    0 ≤ a ∧ t = setCell s a.toNat v := by
  rcases lt_or_ge a 0 with ha | ha
  · rw [memWrite_of_neg s v ha] at h
    cases h
  · rw [memWrite_of_nonneg s v ha] at h
    cases h
    exact ⟨ha, rfl⟩

/-- A read after a write: the written Word at that address, at every other what was read before (20 R31, R32). -/
theorem memRead_setCell (s : State) {a b : Int} (v : Int) (ha : 0 ≤ a) (hb : 0 ≤ b) :
    memRead (setCell s a.toNat v) b = if b = a then .ok v else memRead s b := by
  rw [memRead_of_nonneg _ hb, memRead_of_nonneg _ hb, setCell_mem]
  split
  · next h => rw [h, Memory.read_write_same]
  · next h => rw [Memory.read_write_other _ _ (by omega : b.toNat ≠ a.toNat)]

theorem setCell_zero_of_read_zero {s : State} {a : Nat} (h : s.mem.wf = true) (ha : s.mem.read a = 0) :
    setCell s a 0 = s := by
  rw [setCell, Memory.write_zero_of_read_zero h ha]

end Sys2Proof.Machine

namespace Sys2Proof.Proofs

open Sys2Proof.Machine

/-- Settles O12: a write that answers wrote one checked cell, which is the one a later read sees changed. -/
theorem readsAnswerTheLatestWrite : Obligations.ReadsAnswerTheLatestWrite := by
  refine ⟨fun s a ha => memRead_of_neg s ha, fun image inputs a => ?_, fun s t a b v hw hb => ?_⟩
  · rw [memRead_of_nonneg _ a.cast_nonneg, Int.toNat_natCast, construct_mem_read]
  · obtain ⟨ha, rfl⟩ := memWrite_ok hw
    exact memRead_setCell s v ha hb

/-- Settles O13: the address check is the only fault, and what follows it is `setCell`, which a canonical memory does
not see for a 0 over a 0. -/
theorem writesChangeOneCell : Obligations.WritesChangeOneCell := by
  intro s a v
  refine ⟨memWrite_of_neg s v, fun ha => ?_, fun ha hwf hread => ?_, fun _ _ d _ => ?_⟩
  · refine ⟨_, memWrite_of_nonneg s v ha, Memory.read_write_same _ _ _, fun b hb => ?_, rfl⟩
    exact Memory.read_write_other _ _ (by omega)
  · rw [memWrite_of_nonneg s 0 ha, setCell_zero_of_read_zero hwf hread]
  · exact ⟨_, memWrite_of_nonneg s v d.cast_nonneg⟩

end Sys2Proof.Proofs
end

section
/-! PROOFS. The Decoder (spec/40_decoder.md): what a successful decode says of the word. -/

namespace Sys2Proof

theorem decodeOne_eq_ok {op : Mode → Instr} {v : Nat} {i : Instr} :
    decodeOne op v = .ok i ↔ ∃ m0, modeAt v 0 = .ok m0 ∧ i = op m0 := by
  unfold decodeOne
  cases modeAt v 0 <;> simp [bind, Except.bind, pure, Except.pure, eq_comm]

theorem decodeTwo_eq_ok {op : Mode → Mode → Instr} {v : Nat} {i : Instr} :
    decodeTwo op v = .ok i ↔ ∃ m0 m1, modeAt v 0 = .ok m0 ∧ modeAt v 1 = .ok m1 ∧ i = op m0 m1 := by
  unfold decodeTwo
  cases modeAt v 0 <;> cases modeAt v 1 <;> simp [bind, Except.bind, pure, Except.pure, eq_comm]

theorem decodeThree_eq_ok {op : Mode → Mode → Mode → Instr} {v : Nat} {i : Instr} :
    decodeThree op v = .ok i ↔
      ∃ m0 m1 m2, modeAt v 0 = .ok m0 ∧ modeAt v 1 = .ok m1 ∧ modeAt v 2 = .ok m2 ∧ i = op m0 m1 m2 := by
  unfold decodeThree
  cases modeAt v 0 <;> cases modeAt v 1 <;> cases modeAt v 2 <;>
    simp [bind, Except.bind, pure, Except.pure, eq_comm]

/-- What the opcode field selects is one of the operations 1 to 9 of R52, and never Halt. -/
theorem opcode_of_decodeOperation {v : Nat} {i : Instr} (h : decodeOperation v = .ok i) :
    i.opcode = v % 100 ∧ i.opcode ≤ 9 := by
  unfold decodeOperation at h
  split at h
  case h_3 | h_4 | h_9 =>
    obtain ⟨m0, -, rfl⟩ := decodeOne_eq_ok.1 h
    simp [Instr.opcode, *]
  case h_5 | h_6 =>
    obtain ⟨m0, m1, -, -, rfl⟩ := decodeTwo_eq_ok.1 h
    simp [Instr.opcode, *]
  case h_1 | h_2 | h_7 | h_8 =>
    obtain ⟨m0, m1, m2, -, -, -, rfl⟩ := decodeThree_eq_ok.1 h
    simp [Instr.opcode, *]
  case h_10 => cases h

theorem decodeOperation_ne_halt (v : Nat) : decodeOperation v ≠ .ok .halt := fun h =>
  absurd (opcode_of_decodeOperation h).2 (by decide)

theorem decode_of_neg {w : Int} (h : w < 0) : decode w = .error .negativeWord := if_pos h

theorem decode_halt_word : decode 99 = .ok .halt := rfl

/-- Steps 3 to 7 of R71 are reached exactly by the non-negative words other than 99. -/
theorem decode_of_nonneg {w : Int} (h : 0 ≤ w) (h99 : w ≠ 99) : decode w = decodeOperation w.toNat := by
  rw [decode, if_neg h.not_gt, if_neg h99]

theorem decode_eq_halt_iff {w : Int} : decode w = .ok .halt ↔ w = 99 := by
  refine ⟨fun h => by_contra fun h99 => ?_, fun h => h ▸ decode_halt_word⟩
  rcases lt_or_ge w 0 with hneg | hpos
  · rw [decode_of_neg hneg] at h
    cases h
  · exact decodeOperation_ne_halt _ (decode_of_nonneg hpos h99 ▸ h)

end Sys2Proof

namespace Sys2Proof.Proofs

/-- Settles O3: the operations that the opcode field selects all have opcode at most 9, so that only R71's test of the
whole word answers Halt. -/
theorem haltIsTheWholeWord : Obligations.HaltIsTheWholeWord :=
  ⟨fun _ => decode_eq_halt_iff, rfl, rfl⟩

end Sys2Proof.Proofs
end

section
/-! PROOFS. The parameter counts of the operations (spec/40_decoder.md R74). -/

namespace Sys2Proof

open Laws

/-- The shape of the parameter list (R52), which the model's laws state per constructor, of every instruction. -/
theorem Instr.paramShape : ∀ i : Instr, ParamShape.Statement i
  | .add m0 m1 m2 => ParamShape.add m0 m1 m2
  | .multiply m0 m1 m2 => ParamShape.multiply m0 m1 m2
  | .input m0 => ParamShape.input m0
  | .output m0 => ParamShape.output m0
  | .jumpIfTrue m0 m1 => ParamShape.jumpIfTrue m0 m1
  | .jumpIfFalse m0 m1 => ParamShape.jumpIfFalse m0 m1
  | .lessThan m0 m1 m2 => ParamShape.lessThan m0 m1 m2
  | .equals m0 m1 m2 => ParamShape.equals m0 m1 m2
  | .adjustRelativeBase m0 => ParamShape.adjustRelativeBase m0
  | .halt => ParamShape.halt

/-- R74, of every instruction there is, so of every one the Decoder returns: one mode for each parameter. -/
@[simp] theorem Instr.length_modes (i : Instr) : i.modes.length = i.paramCount := by
  obtain ⟨hcount, -⟩ := i.paramShape
  rw [Instr.modes, List.length_map, hcount]

end Sys2Proof

namespace Sys2Proof.Proofs

/-- Settles O4: the Decoder can return no other mode list, as the instruction's constructor fixes its length; the counts
are R52's rows. -/
theorem parameterCountIsFixed : Obligations.ParameterCountIsFixed := by
  refine ⟨fun _ i _ => i.length_modes, fun _ _ _ => ?threeParameters, fun _ _ => ?twoParameters,
    fun _ => ?oneParameter, rfl⟩
  case threeParameters => exact ⟨rfl, rfl, rfl, rfl⟩
  case twoParameters => exact ⟨rfl, rfl⟩
  case oneParameter => exact ⟨rfl, rfl, rfl⟩

end Sys2Proof.Proofs
end

section
/-! PROOFS. The engine cycle (spec/41_engine_cycle.md): what the address-mode resolver answers. -/

namespace Sys2Proof.Machine

/-- A memory read checks its address first (R93). -/
theorem memRead_checks_address (s : State) (a : Int) :
    memRead s a = if a < 0 then .error .invalidAddress else memRead s a := by
  split
  case isTrue h => exact memRead_of_neg s h
  case isFalse => rfl

section
variable {s : State} {i : Nat} {w : Int} (hw : fetchParam s i = .ok w)
include hw

theorem resolveValue_immediate : resolveValue s i .immediate = .ok w := by
  rw [resolveValue, hw]; rfl

theorem resolveValue_position : resolveValue s i .position = memRead s w := by
  rw [resolveValue, hw]; rfl

theorem resolveValue_relative : resolveValue s i .relative = memRead s (s.rb + w) := by
  rw [resolveValue, hw]; rfl

end

end Sys2Proof.Machine

namespace Sys2Proof.Proofs

open Sys2Proof.Machine

/-- Settles O19: the word at `ip + 1 + i` is the fetched parameter word, and the two address modes read the cell it
forms, whose check is the read's own. -/
theorem valueResolution : Obligations.ValueResolution := by
  intro s i _ w hread
  have hw : fetchParam s i = .ok w := hread
  refine ⟨resolveValue_immediate hw, ?position, ?relative⟩
  case position => exact (resolveValue_position hw).trans (memRead_checks_address s w)
  case relative => exact (resolveValue_relative hw).trans (memRead_checks_address s (s.rb + w))

end Sys2Proof.Proofs
end

section
/-! PROOFS. Output (spec/43_input_output.md R116): its encoding, what it commits, its one fault. -/

namespace Sys2Proof

/-- The opcode word of Output in each of the three modes (30 R52, R54). -/
theorem decode_output_word (m0 : Mode) : decode (4 + 100 * modeDigit m0) = .ok (.output m0) := by
  cases m0 with
  | position => rfl
  | immediate => rfl
  | relative => rfl

end Sys2Proof

namespace Sys2Proof.Machine

open Sys2Proof.Safety

/-- The `next_ip` of an instruction with one parameter (41 R96, 10 R13). -/
theorem advance_one (s : State) : advance s 1 = { s with ip := s.ip + 2 } :=
  congrArg (setIp s) (Int.add_assoc s.ip 1 1)

theorem faultsWith_faultedState (c : FaultCause) (s : State) : faultsWith (.next (faultedState c s)) c :=
  ⟨_, rfl, faultedState_runState c s, faultedState_faultCause c s⟩

section
variable {m0 : Mode} {s : State} (hip : 0 ≤ s.ip)
include hip

theorem exec_output_of_inRange (hr : inRange s 0 m0) :
    exec (.output m0) s = .next (advance (outPush s (valueOf s 0 m0)) 1) :=
  (execOutput_eq m0 s hip).trans (if_pos hr)

theorem exec_output_of_not_inRange (hr : ¬ inRange s 0 m0) :
    exec (.output m0) s = .next (faultedState .invalidAddress s) :=
  (execOutput_eq m0 s hip).trans (if_neg hr)

end

end Sys2Proof.Machine

namespace Sys2Proof.Proofs

open Sys2Proof.Machine

/-- Settles O26: the only check of an Output is the address of its parameter; past it, the log and `ip` are all that
the commit touches. -/
theorem outputAppendsTheValue : Obligations.OutputAppendsTheValue := by
  intro m0 s hip
  refine ⟨decode_output_word m0, fun hr => ?commits, fun hr => ?faults⟩
  case commits =>
    rw [exec_output_of_inRange hip hr, advance_one]
    rfl
  case faults =>
    rw [exec_output_of_not_inRange hip hr]
    exact faultsWith_faultedState .invalidAddress s

end Sys2Proof.Proofs
end

section
/-! PROOFS. The jumps (spec/44_jumps.md R120, R121): what both commit, their one fault, and that exactly one of them is
taken. -/

namespace Sys2Proof

/-- The opcode word of JumpIfFalse in each of its nine mode pairs (30 R52, R54). -/
theorem decode_jumpIfFalse_word (m0 m1 : Mode) :
    decode (6 + 100 * modeDigit m0 + 1000 * modeDigit m1) = .ok (.jumpIfFalse m0 m1) := by
  cases m0 <;> cases m1 <;> rfl

end Sys2Proof

namespace Sys2Proof.Machine

open Sys2Proof.Safety

/-- The `next_ip` of an instruction with two parameters (41 R96, 10 R13). -/
theorem advance_two (s : State) : advance s 2 = setIp s (s.ip + 3) :=
  congrArg (setIp s) (Int.add_assoc s.ip 1 2)

section
variable {m0 m1 : Mode} {s : State} (hip : 0 ≤ s.ip)
include hip

/-- Past the address checks a jump, whatever its test, commits an `ip` and nothing else. -/
theorem settle_jumpWhen_of_inRange (taken : Int → Bool) (h0 : inRange s 0 m0) (h1 : inRange s 1 m1) :
    settle s (jumpWhen taken m0 m1 s) =
      .next (setIp s (if taken (valueOf s 0 m0) then valueOf s 1 m1 else s.ip + 3)) := by
  rw [jumpWhen_eq taken m0 m1 s hip, if_pos ⟨h0, h1⟩, settle_ok, advance_two, apply_ite (setIp s)]

theorem settle_jumpWhen_of_not_inRange (taken : Int → Bool) (h : ¬ (inRange s 0 m0 ∧ inRange s 1 m1)) :
    settle s (jumpWhen taken m0 m1 s) = .next (faultedState .invalidAddress s) := by
  rw [jumpWhen_eq taken m0 m1 s hip, if_neg h, settle_error]

theorem exec_jumpIfTrue_of_inRange (h0 : inRange s 0 m0) (h1 : inRange s 1 m1) :
    exec (.jumpIfTrue m0 m1) s =
      .next (setIp s (if valueOf s 0 m0 ≠ 0 then valueOf s 1 m1 else s.ip + 3)) :=
  (settle_jumpWhen_of_inRange hip isNonZero h0 h1).trans (by simp [isNonZero])

theorem exec_jumpIfFalse_of_inRange (h0 : inRange s 0 m0) (h1 : inRange s 1 m1) :
    exec (.jumpIfFalse m0 m1) s =
      .next (setIp s (if valueOf s 0 m0 = 0 then valueOf s 1 m1 else s.ip + 3)) :=
  (settle_jumpWhen_of_inRange hip (fun c => !isNonZero c) h0 h1).trans (by simp [isNonZero])

theorem exec_jumpIfFalse_of_not_inRange (h : ¬ (inRange s 0 m0 ∧ inRange s 1 m1)) :
    exec (.jumpIfFalse m0 m1) s = .next (faultedState .invalidAddress s) :=
  settle_jumpWhen_of_not_inRange hip _ h

/-- The two jumps test one condition in opposite senses, so where the target is not the fall-through address exactly one
of them goes to it. -/
theorem exactly_one_jump_taken {t f : State}
    (ht : exec (.jumpIfTrue m0 m1) s = .next t) (hf : exec (.jumpIfFalse m0 m1) s = .next f)
    (h0 : inRange s 0 m0) (h1 : inRange s 1 m1) (htarget : valueOf s 1 m1 ≠ s.ip + 3) :
    t.ip = valueOf s 1 m1 ↔ ¬ f.ip = valueOf s 1 m1 := by
  rw [exec_jumpIfTrue_of_inRange hip h0 h1] at ht
  rw [exec_jumpIfFalse_of_inRange hip h0 h1] at hf
  cases ht
  cases hf
  by_cases hc : valueOf s 0 m0 = 0
  case pos => simpa [hc] using htarget.symm
  case neg => simpa [hc] using htarget.symm

end

end Sys2Proof.Machine

namespace Sys2Proof.Proofs

open Sys2Proof.Machine

/-- Settles O28: the addresses of the two parameters are the only checks of either jump; past them both commit an `ip`
alone, chosen by the one condition in opposite senses. -/
theorem jumpIfFalseJumpsOnZero : Obligations.JumpIfFalseJumpsOnZero := by
  intro m0 m1 s hip
  refine ⟨decode_jumpIfFalse_word m0 m1, fun h0 h1 => exec_jumpIfFalse_of_inRange hip h0 h1, fun h => ?faults,
    fun _ _ => exactly_one_jump_taken hip⟩
  rw [exec_jumpIfFalse_of_not_inRange hip h]
  exact faultsWith_faultedState .invalidAddress s

end Sys2Proof.Proofs
end

section
/-! PROOFS. The comparisons (spec/45_compare.md R127): the truth words, and the Word a completed comparison leaves at its
destination. -/

namespace Sys2Proof.Machine

open Sys2Proof.Safety

theorem lessThanWord_of_lt {a b : Int} (h : a < b) : lessThanWord a b = 1 := by
  rw [lessThanWord, decide_eq_true h, truthWord, if_pos rfl]

theorem lessThanWord_of_not_lt {a b : Int} (h : ¬ a < b) : lessThanWord a b = 0 := by
  rw [lessThanWord, decide_eq_false h, truthWord, if_neg Bool.false_ne_true]

theorem equalsWord_of_eq {a b : Int} (h : a = b) : equalsWord a b = 1 := by
  rw [equalsWord, decide_eq_true h, truthWord, if_pos rfl]

theorem equalsWord_of_ne {a b : Int} (h : a ≠ b) : equalsWord a b = 0 := by
  rw [equalsWord, decide_eq_false h, truthWord, if_neg Bool.false_ne_true]

/-- The trichotomy of ℤ as truth words: one of the three is 1 and the other two are 0. -/
theorem truthWords_sum_one (a b : Int) : lessThanWord a b + equalsWord a b + lessThanWord b a = 1 := by
  rcases lt_trichotomy a b with hlt | heq | hgt
  · rw [lessThanWord_of_lt hlt, equalsWord_of_ne hlt.ne, lessThanWord_of_not_lt hlt.not_gt]; rfl
  · rw [lessThanWord_of_not_lt heq.not_lt, equalsWord_of_eq heq, lessThanWord_of_not_lt heq.not_gt]; rfl
  · rw [lessThanWord_of_not_lt hgt.not_gt, equalsWord_of_ne hgt.ne', lessThanWord_of_lt hgt]; rfl

/-- A completing instruction answers its commit. -/
theorem exec_of_completes {i : Instr} {s : State} (hip : 0 ≤ s.ip) (hc : completes i s) :
    exec i s = .next (commitOf i s) := by
  rw [exec_eq i s hip, faultOf_eq_none.2 hc]

theorem eq_commitOf_of_exec {i : Instr} {s t : State} (hip : 0 ≤ s.ip) (hc : completes i s)
    (h : exec i s = .next t) : t = commitOf i s := by
  rw [exec_of_completes hip hc] at h
  cases h
  rfl

section
variable {m0 m1 m2 : Mode} {s t : State}

/-- LessThan and Equals have the same parameters, so one completes where the other does. -/
theorem completes_equals_of_lessThan (hc : completes (.lessThan m0 m1 m2) s) : completes (.equals m0 m1 m2) s := by
  obtain ⟨hwf, hrange, -⟩ := hc
  exact ⟨hwf, hrange, fun ⟨hop, _⟩ => absurd hop (by decide : (8 : Nat) ≠ 3)⟩

theorem destination_of_lessThan (hip : 0 ≤ s.ip) (hc : completes (.lessThan m0 m1 m2) s)
    (h : exec (.lessThan m0 m1 m2) s = .next t) :
    t.mem.read (targetOf s 2 m2).toNat = lessThanWord (valueOf s 0 m0) (valueOf s 1 m1) := by
  rw [eq_commitOf_of_exec hip hc h]
  exact Memory.read_write_same _ _ _

theorem destination_of_equals (hip : 0 ≤ s.ip) (hc : completes (.equals m0 m1 m2) s)
    (h : exec (.equals m0 m1 m2) s = .next t) :
    t.mem.read (targetOf s 2 m2).toNat = equalsWord (valueOf s 0 m0) (valueOf s 1 m1) := by
  rw [eq_commitOf_of_exec hip hc h]
  exact Memory.read_write_same _ _ _

end

end Sys2Proof.Machine

namespace Sys2Proof.Proofs

open Sys2Proof.Machine Sys2Proof.Safety

/-- Settles O31: a completed comparison leaves its truth word at the destination, and of the three truth words of two
integers, in either order, exactly one is 1. -/
theorem comparisonsAreTrichotomous : Obligations.ComparisonsAreTrichotomous := by
  refine ⟨fun m0 m1 m2 s t hip hc h => ?lessThan, fun m0 m1 m2 s t hip hc h => ?equals,
    fun m0 m1 m2 s r t e u hips hipr hcs hcr h0 h1 ht he hu => ?trichotomy⟩
  case lessThan =>
    rw [destination_of_lessThan hip hc h]
    exact ⟨lessThanWord_of_lt, lessThanWord_of_not_lt⟩
  case equals =>
    rw [destination_of_equals hip hc h]
    exact ⟨equalsWord_of_eq, equalsWord_of_ne⟩
  case trichotomy =>
    rw [destination_of_lessThan hips hcs ht, destination_of_equals hips (completes_equals_of_lessThan hcs) he,
      destination_of_lessThan hipr hcr hu, h0, h1]
    exact truthWords_sum_one (valueOf s 0 m0) (valueOf s 1 m1)

end Sys2Proof.Proofs
end

section
/-! PROOFS. AdjustRelativeBase (spec/46_relative_base.md R130): its encoding, what it commits, its one fault. -/

namespace Sys2Proof

/-- The opcode word of AdjustRelativeBase in each of the three modes (30 R52, R54). -/
theorem decode_adjustRelativeBase_word (m0 : Mode) :
    decode (9 + 100 * modeDigit m0) = .ok (.adjustRelativeBase m0) := by
  cases m0 with
  | position => rfl
  | immediate => rfl
  | relative => rfl

end Sys2Proof

namespace Sys2Proof.Machine

open Sys2Proof.Safety

section
variable {m0 : Mode} {s : State} (hip : 0 ≤ s.ip)
include hip

theorem exec_adjustRelativeBase_of_inRange (hr : inRange s 0 m0) :
    exec (.adjustRelativeBase m0) s = .next (advance (addToBase s (valueOf s 0 m0)) 1) :=
  (execAdjustRelativeBase_eq m0 s hip).trans (if_pos hr)

theorem exec_adjustRelativeBase_of_not_inRange (hr : ¬ inRange s 0 m0) :
    exec (.adjustRelativeBase m0) s = .next (faultedState .invalidAddress s) :=
  (execAdjustRelativeBase_eq m0 s hip).trans (if_neg hr)

end

end Sys2Proof.Machine

namespace Sys2Proof.Proofs

open Sys2Proof.Machine

/-- Settles O29: the parameter is found with the old base, and its address is the only check; past it the commit adds
the value to `rb`, whatever the sum, and moves `ip`. -/
theorem adjustRelativeBaseAdds : Obligations.AdjustRelativeBaseAdds := by
  intro m0 s hip
  refine ⟨decode_adjustRelativeBase_word m0, fun hr => ?commits, fun hr => ?faults⟩
  case commits =>
    rw [exec_adjustRelativeBase_of_inRange hip hr, advance_one]
    rfl
  case faults =>
    rw [exec_adjustRelativeBase_of_not_inRange hip hr]
    exact faultsWith_faultedState .invalidAddress s

end Sys2Proof.Proofs
end

section
/-! PROOFS. Halt (spec/47_halt.md R133): what it commits, and that no other instruction and no other step ends in
HALTED. -/

namespace Sys2Proof.Machine

open Sys2Proof.Safety

theorem exec_halt (s : State) : exec .halt s = .next (haltRun s) := rfl

/-- A fallible computation that answers got an answer from its first part. -/
theorem exists_ok_of_bind_eq_ok {α β : Type} {x : Except FaultCause α} {f : α → Except FaultCause β} {b : β}
    (h : x >>= f = .ok b) : ∃ a, x = .ok a ∧ f a = .ok b := by
  cases x with
  | ok a => exact ⟨a, rfl, h⟩
  | error c => cases h

theorem inPop_ok {s u : State} {v : Int} (h : inPop s = .ok (v, u)) : u = { s with inq := s.inq.tail } := by
  unfold inPop at h
  cases hq : s.inq with
  | nil => rw [hq] at h; cases h
  | cons v rest => rw [hq] at h; cases h; rfl

/-- A meaning whose commit keeps the status answers that status or a fault. -/
theorem runState_of_settle {s t : State} {r : Except FaultCause State} (h : settle s r = .next t)
    (hr : r = .ok t → t.runState = s.runState) : t.runState = s.runState ∨ t.runState = .faulted := by
  rcases settle_cases h with hok | ⟨c, -, rfl⟩
  · exact .inl (hr hok)
  · exact .inr (faultedState_runState c s)

/-- Every instruction but Halt leaves the status as it is, or faults. -/
theorem runState_of_exec {i : Instr} {s t : State} (hi : i ≠ .halt) (h : exec i s = .next t) :
    t.runState = s.runState ∨ t.runState = .faulted := by
  cases i with
  | halt => exact absurd rfl hi
  | add | multiply | lessThan | equals =>
    refine runState_of_settle h fun hok => ?_
    obtain ⟨a, b, d, -, -, -, rfl⟩ := storeBinary_ok hok
    rfl
  | jumpIfTrue | jumpIfFalse =>
    refine runState_of_settle h fun hok => ?_
    obtain ⟨x, rfl⟩ := jumpWhen_ok hok
    rfl
  | output | adjustRelativeBase =>
    refine runState_of_settle h fun hok => ?_
    obtain ⟨a, -, hcommit⟩ := exists_ok_of_bind_eq_ok hok
    cases hcommit
    rfl
  | input =>
    refine runState_of_settle h fun hok => ?_
    obtain ⟨-, -, hok⟩ := exists_ok_of_bind_eq_ok hok
    obtain ⟨d, -, hok⟩ := exists_ok_of_bind_eq_ok hok
    obtain ⟨⟨v, u⟩, hpop, hcommit⟩ := exists_ok_of_bind_eq_ok hok
    cases hcommit
    rw [inPop_ok hpop]
    rfl

theorem eq_halt_of_exec_halted {i : Instr} {s t : State} (h : exec i s = .next t)
    (hs : s.runState ≠ .halted) (ht : t.runState = .halted) : i = .halt := by
  by_contra hi
  rcases runState_of_exec hi h with hkept | hfaulted
  · exact hs (hkept ▸ ht)
  · exact absurd (hfaulted.symm.trans ht) (by decide)

/-- The Halt is fetched exactly where the Word 99 stands at an address (R58, R87). -/
theorem fetches_halt_iff {s : State} : fetches s .halt ↔ 0 ≤ s.ip ∧ wordAtIp s = 99 :=
  and_congr_right fun _ => decode_eq_halt_iff

theorem step_of_fetches {s : State} {i : Instr} (hr : s.runState = .running) (hf : fetches s i) :
    step s = exec i s := by
  rw [step_running hr, fetch_of_fetches hf]

/-- A step enters HALTED only by running a fetched Halt. -/
theorem fetches_halt_of_step_halted {s t : State} (h : step s = .next t)
    (hs : s.runState ≠ .halted) (ht : t.runState = .halted) : s.runState = .running ∧ fetches s .halt := by
  cases hr : s.runState with
  | ready => rw [step_ready hr] at h; cases h; cases ht
  | halted => exact absurd hr hs
  | faulted => rw [step_faulted hr] at h; cases h
  | running =>
    cases hf : fetch s with
    | error c => rw [step_running hr, hf] at h; cases h; cases ht
    | ok i =>
      have hi : fetches s i := fetches_of_fetch hf
      rw [step_of_fetches hr hi] at h
      exact ⟨rfl, eq_halt_of_exec_halted h hs ht ▸ hi⟩

end Sys2Proof.Machine

namespace Sys2Proof.Proofs

open Sys2Proof.Machine

/-- Settles O30: every other instruction keeps the status or faults, so HALTED is entered by a Halt alone, and a step
runs one exactly where it fetches the Word 99. -/
theorem haltStopsTheRun : Obligations.HaltStopsTheRun := by
  refine ⟨exec_halt, fun s hr hip hw => ?stops, fun i s t h hs ht => eq_halt_of_exec_halted h hs ht,
    fun s t h hs ht => ?onlyWay⟩
  case stops => exact (step_of_fetches hr (fetches_halt_iff.2 ⟨hip, hw⟩)).trans (exec_halt s)
  case onlyWay =>
    obtain ⟨hr, hf⟩ := fetches_halt_of_step_halted h hs ht
    exact ⟨hr, fetches_halt_iff.1 hf⟩

end Sys2Proof.Proofs
end

section
/-! PROOFS. The Decoder by digits (spec/30_encoding.md R51 to R60, spec/40_decoder.md R71 to R78): which words decode to
an instruction, and which words decode to none. -/

namespace Sys2Proof

open Sys2Proof.Safety

theorem modeDigit_lt_ten (m : Mode) : modeDigit m < 10 := by
  cases m <;> decide

theorem modeOfDigit_modeDigit (m : Mode) : modeOfDigit (modeDigit m) = .ok m := by
  cases m <;> rfl

theorem modeAt_eq_ok {v k : Nat} {m : Mode} : modeAt v k = .ok m ↔ digit (k + 2) v = modeDigit m := by
  unfold modeAt
  refine ⟨fun h => ?_, fun h => h ▸ modeOfDigit_modeDigit m⟩
  unfold modeOfDigit at h
  split at h <;> cases h <;> assumption

theorem modeAt_eq_error {v k : Nat} : (∃ f, modeAt v k = .error f) ↔ 3 ≤ digit (k + 2) v := by
  unfold modeAt modeOfDigit
  split
  case h_4 h0 h1 h2 =>
    have hbig : 3 ≤ digit (k + 2) v := by
      have h0 : digit (k + 2) v ≠ 0 := h0
      have h1 : digit (k + 2) v ≠ 1 := h1
      have h2 : digit (k + 2) v ≠ 2 := h2
      omega
    exact ⟨fun _ => hbig, fun _ => ⟨_, rfl⟩⟩
  all_goals simp [*]

/-- A claim about every element of a list with its place, read off from the front. -/
theorem forall_getElem?_cons {α : Type} {a : α} {l : List α} {P : Nat → α → Prop} :
    (∀ k x, (a :: l)[k]? = some x → P k x) ↔ P 0 a ∧ ∀ k x, l[k]? = some x → P (k + 1) x := by
  refine ⟨fun h => ⟨h 0 a rfl, fun k x hx => h (k + 1) x hx⟩, fun ⟨h0, h⟩ k x hx => ?_⟩
  cases k with
  | zero => cases hx; exact h0
  | succ k => exact h k x hx

/-- One more mode digit stays below the next weight. -/
theorem add_mul_modeDigit_lt {weight r : Nat} (hr : r < weight) (m : Mode) :
    r + weight * modeDigit m < weight * 10 := by
  have := modeDigit_lt_ten m
  nlinarith

theorem add_modeDigitsFrom_lt (ms : List Mode) {weight r : Nat} (hr : r < weight) :
    r + modeDigitsFrom weight ms < weight * 10 ^ ms.length := by
  induction ms generalizing weight r with
  | nil => simpa [modeDigitsFrom] using hr
  | cons m ms ih =>
    have := ih (add_mul_modeDigit_lt hr m)
    rwa [modeDigitsFrom, List.length_cons, pow_succ', ← mul_assoc, ← add_assoc]

/-- The lower digits of a word are `r` and mode digits above it exactly when each digit is as it should be (R51). -/
theorem mod_eq_add_modeDigitsFrom (v : Nat) (ms : List Mode) (weight r : Nat) (hr : r < weight) :
    v % (weight * 10 ^ ms.length) = r + modeDigitsFrom weight ms ↔
      v % weight = r ∧ ∀ k m, ms[k]? = some m → v / (weight * 10 ^ k) % 10 = modeDigit m := by
  induction ms generalizing weight r with
  | nil => simp [modeDigitsFrom]
  | cons m ms ih =>
    have hlow : v % (weight * 10) = r + weight * modeDigit m ↔ v % weight = r ∧ v / weight % 10 = modeDigit m := by
      rw [Nat.mod_mul]
      refine ⟨fun h => ?_, fun ⟨h1, h2⟩ => h1 ▸ h2 ▸ rfl⟩
      have hmod := congrArg (· % weight) h
      have hdiv := congrArg (· / weight) h
      have hw : 0 < weight := by omega
      simp only [Nat.add_mul_mod_self_left, Nat.mod_mod, Nat.mod_eq_of_lt hr] at hmod
      simp only [Nat.add_mul_div_left _ _ hw, Nat.div_eq_of_lt hr, Nat.div_eq_of_lt (Nat.mod_lt v hw)] at hdiv
      exact ⟨hmod, by omega⟩
    rw [List.length_cons, forall_getElem?_cons, modeDigitsFrom, pow_succ', ← mul_assoc, ← add_assoc,
      ih _ _ (add_mul_modeDigit_lt hr m), hlow, and_assoc]
    simp [pow_succ', mul_assoc]

theorem Instr.opcode_le_nine {i : Instr} (hi : i ≠ .halt) : i.opcode ≤ 9 := by
  cases i with
  | halt => exact absurd rfl hi
  | _ => simp [Instr.opcode]

theorem Instr.opcode_lt_hundred {i : Instr} (hi : i ≠ .halt) : i.opcode < 100 :=
  (Instr.opcode_le_nine hi).trans_lt (by decide)

theorem hundred_mul_pow (k : Nat) : 100 * 10 ^ k = 10 ^ (k + 2) := by ring

theorem opcodeWord_lt {i : Instr} (hi : i ≠ .halt) : opcodeWord i < 10 ^ (i.paramCount + 2) := by
  have h := add_modeDigitsFrom_lt i.modes (Instr.opcode_lt_hundred hi)
  rwa [Instr.length_modes, hundred_mul_pow] at h

/-- Every digit of a canonical word but its ignored zeros belongs to the opcode field or to a parameter (R51). -/
theorem mod_eq_opcodeWord_iff {v : Nat} {i : Instr} (hi : i ≠ .halt) :
    v % 10 ^ (i.paramCount + 2) = opcodeWord i ↔
      v % 100 = i.opcode ∧ ∀ k m, i.modes[k]? = some m → digit (k + 2) v = modeDigit m := by
  have h := mod_eq_add_modeDigitsFrom v i.modes 100 i.opcode (Instr.opcode_lt_hundred hi)
  simpa only [Instr.length_modes, hundred_mul_pow, digit, opcodeWord] using h

theorem decodeOperation_eq_ok {v : Nat} {i : Instr} :
    decodeOperation v = .ok i ↔
      i ≠ .halt ∧ v % 100 = i.opcode ∧ ∀ k m, i.modes[k]? = some m → digit (k + 2) v = modeDigit m := by
  refine ⟨fun h => ⟨fun hi => decodeOperation_ne_halt v (hi ▸ h), (opcode_of_decodeOperation h).1.symm, ?_⟩, ?_⟩
  · unfold decodeOperation at h
    split at h
    case h_3 | h_4 | h_9 =>
      obtain ⟨m0, h0, rfl⟩ := decodeOne_eq_ok.1 h
      simpa [Instr.modes, Instr.params, forall_getElem?_cons] using modeAt_eq_ok.1 h0
    case h_5 | h_6 =>
      obtain ⟨m0, m1, h0, h1, rfl⟩ := decodeTwo_eq_ok.1 h
      simpa [Instr.modes, Instr.params, forall_getElem?_cons] using ⟨modeAt_eq_ok.1 h0, modeAt_eq_ok.1 h1⟩
    case h_1 | h_2 | h_7 | h_8 =>
      obtain ⟨m0, m1, m2, h0, h1, h2, rfl⟩ := decodeThree_eq_ok.1 h
      simpa [Instr.modes, Instr.params, forall_getElem?_cons] using
        ⟨modeAt_eq_ok.1 h0, modeAt_eq_ok.1 h1, modeAt_eq_ok.1 h2⟩
    case h_10 => cases h
  · rintro ⟨hi, hop, hdigits⟩
    unfold decodeOperation
    cases i with
    | halt => exact absurd rfl hi
    | add | multiply | lessThan | equals =>
      simp only [hop, Instr.opcode]
      exact decodeThree_eq_ok.2 ⟨_, _, _, modeAt_eq_ok.2 (hdigits 0 _ rfl), modeAt_eq_ok.2 (hdigits 1 _ rfl),
        modeAt_eq_ok.2 (hdigits 2 _ rfl), rfl⟩
    | jumpIfTrue | jumpIfFalse =>
      simp only [hop, Instr.opcode]
      exact decodeTwo_eq_ok.2 ⟨_, _, modeAt_eq_ok.2 (hdigits 0 _ rfl), modeAt_eq_ok.2 (hdigits 1 _ rfl), rfl⟩
    | input | output | adjustRelativeBase =>
      simp only [hop, Instr.opcode]
      exact decodeOne_eq_ok.2 ⟨_, modeAt_eq_ok.2 (hdigits 0 _ rfl), rfl⟩

/-- A decode in terms of digits, for every word and every instruction but Halt. -/
theorem decode_natCast_eq_ok {v : Nat} {i : Instr} (hi : i ≠ .halt) :
    decode v = .ok i ↔ v % 100 = i.opcode ∧ ∀ k m, i.modes[k]? = some m → digit (k + 2) v = modeDigit m := by
  by_cases h99 : v = 99
  · have hop := Instr.opcode_le_nine hi
    subst h99
    rw [show ((99 : Nat) : Int) = 99 from rfl, decode_halt_word]
    exact ⟨fun h => absurd (Except.ok.inj h).symm hi, fun ⟨h, _⟩ => by omega⟩
  · rw [decode_of_nonneg v.cast_nonneg (by omega), Int.toNat_natCast, decodeOperation_eq_ok, and_iff_right hi]

theorem decode_natCast_eq_ok_iff_mod {v : Nat} {i : Instr} (hi : i ≠ .halt) :
    decode v = .ok i ↔ v % 10 ^ (i.paramCount + 2) = opcodeWord i :=
  (decode_natCast_eq_ok hi).trans (mod_eq_opcodeWord_iff hi).symm

theorem nonneg_of_decode {w : Int} {i : Instr} (h : decode w = .ok i) : 0 ≤ w := by
  by_contra hneg
  rw [decode_of_neg (by omega)] at h
  cases h

theorem decode_eq_ok_iff_mod {w : Int} {i : Instr} (hi : i ≠ .halt) :
    decode w = .ok i ↔ 0 ≤ w ∧ w % 10 ^ (i.paramCount + 2) = encode i := by
  refine ⟨fun h => ⟨nonneg_of_decode h, ?_⟩, fun ⟨hpos, h⟩ => ?_⟩
  · lift w to Nat using nonneg_of_decode h
    exact congrArg Nat.cast ((decode_natCast_eq_ok_iff_mod hi).1 h)
  · lift w to Nat using hpos
    exact (decode_natCast_eq_ok_iff_mod hi).2 (Int.ofNat.inj h)

theorem decode_encode (i : Instr) : decode (encode i) = .ok i := by
  by_cases hi : i = .halt
  · subst hi; rfl
  · refine (decode_natCast_eq_ok_iff_mod hi).2 (Nat.mod_eq_of_lt (opcodeWord_lt hi))

end Sys2Proof

namespace Sys2Proof.Proofs

/-- Settles O5: the canonical word has no digit above its last mode digit, so it is its own remainder. -/
theorem decodeOfEncodeIsTheInstruction : Obligations.DecodeOfEncodeIsTheInstruction := decode_encode

/-- Settles O7: Halt is the whole word 99; every other decode examines the opcode field and the mode digits of its
parameters, which are the digits of the remainder. -/
theorem wordsOfAnInstructionExactly : Obligations.WordsOfAnInstructionExactly := by
  intro w i
  by_cases hi : i = .halt
  case pos => simp [hi, decode_eq_halt_iff]
  case neg => simp [hi, decode_eq_ok_iff_mod hi]

/-- Settles O6: a multiple of the weight above the last mode digit leaves the remainder as it is; above a 99 it leaves
the opcode field 99, which selects no operation. -/
theorem surplusDigitsAreIgnored : Obligations.SurplusDigitsAreIgnored := by
  refine ⟨fun i v k hi h => ?ignored, fun k hk => ?neverHalt⟩
  case ignored =>
    obtain ⟨hpos, hmod⟩ := (decode_eq_ok_iff_mod hi).1 h
    refine (decode_eq_ok_iff_mod hi).2 ⟨by positivity, ?_⟩
    rw [Int.add_mul_emod_self_right, hmod]
  case neverHalt =>
    cases hd : decode (99 + k * 100) with
    | error f => exact ⟨f, rfl⟩
    | ok i =>
      have hw : (99 + k * 100 : Int) ≠ 99 := by omega
      have hi : i ≠ .halt := fun hi => hw (decode_eq_halt_iff.1 (hi ▸ hd))
      have hop := Instr.opcode_le_nine hi
      obtain ⟨hfield, -⟩ := (decode_natCast_eq_ok (v := 99 + k * 100) hi).1 (by exact_mod_cast hd)
      omega

end Sys2Proof.Proofs
end

section
/-! PROOFS. What the Decoder rejects and which decodes are ill-formed, by digits (spec/30_encoding.md R56), the list of
legal words (R60), and the worked decodes (spec/40_decoder.md R82). -/

namespace Sys2Proof

open Sys2Proof.Safety

theorem decodeOne_eq_error {op : Mode → Instr} {v : Nat} :
    (∃ f, decodeOne op v = .error f) ↔ ∃ k < 1, 3 ≤ digit (k + 2) v := by
  simp only [← modeAt_eq_error, Nat.exists_lt_succ_right, Nat.not_lt_zero, false_and, exists_false, false_or]
  unfold decodeOne
  cases modeAt v 0 <;> simp [bind, Except.bind, pure, Except.pure]

theorem decodeTwo_eq_error {op : Mode → Mode → Instr} {v : Nat} :
    (∃ f, decodeTwo op v = .error f) ↔ ∃ k < 2, 3 ≤ digit (k + 2) v := by
  simp only [← modeAt_eq_error, Nat.exists_lt_succ_right, Nat.not_lt_zero, false_and, exists_false, false_or]
  unfold decodeTwo
  cases modeAt v 0 <;> cases modeAt v 1 <;> simp [bind, Except.bind, pure, Except.pure]

theorem decodeThree_eq_error {op : Mode → Mode → Mode → Instr} {v : Nat} :
    (∃ f, decodeThree op v = .error f) ↔ ∃ k < 3, 3 ≤ digit (k + 2) v := by
  simp only [← modeAt_eq_error, Nat.exists_lt_succ_right, Nat.not_lt_zero, false_and, exists_false, false_or]
  unfold decodeThree
  cases modeAt v 0 <;> cases modeAt v 1 <;> cases modeAt v 2 <;> simp [bind, Except.bind, pure, Except.pure]

/-- The opcode field selects no operation, or the one it selects has a bad mode digit (R56 (b), (c)). -/
theorem decodeOperation_eq_error {v : Nat} :
    (∃ f, decodeOperation v = .error f) ↔
      (v % 100 < 1 ∨ 9 < v % 100) ∨ ∃ k < countOfCode (v % 100 : Nat), 3 ≤ digit (k + 2) v := by
  unfold decodeOperation
  split
  case h_1 h | h_2 h | h_7 h | h_8 h => simp [h, countOfCode, decodeThree_eq_error]
  case h_3 h | h_4 h | h_9 h => simp [h, countOfCode, decodeOne_eq_error]
  case h_5 h | h_6 h => simp [h, countOfCode, decodeTwo_eq_error]
  case h_10 h1 h2 h3 h4 h5 h6 h7 h8 h9 =>
    have hrange : v % 100 < 1 ∨ 9 < v % 100 := by
      generalize v % 100 = field at *
      simp only [imp_false] at *
      omega
    exact ⟨fun _ => .inl hrange, fun _ => ⟨_, rfl⟩⟩

theorem undecodable_natCast {v : Nat} :
    undecodable v ↔ (v ≠ 99 ∧ (v % 100 < 1 ∨ 9 < v % 100)) ∨
      ∃ k < countOfCode (v % 100 : Nat), 3 ≤ digit (k + 2) v := by
  unfold undecodable digit
  norm_cast
  simp

theorem decode_eq_error_iff {w : Int} : (∃ f, decode w = .error f) ↔ undecodable w := by
  by_cases hneg : w < 0
  · simp [decode_of_neg hneg, undecodable, hneg]
  lift w to Nat using by omega
  rw [undecodable_natCast]
  by_cases h99 : w = 99
  · subst h99
    simp [decode_halt_word, countOfCode]
  · rw [decode_of_nonneg (by omega) (by omega), Int.toNat_natCast, decodeOperation_eq_error, and_iff_right h99]

/-- The opcode field of a decoded word, as the spec's conditions on Words write it. -/
theorem opcode_field_of_decode {w : Int} {i : Instr} (h : decode w = .ok i) : w % 100 = i.opcode := by
  by_cases hi : i = .halt
  · subst hi
    rw [decode_eq_halt_iff.1 h]
    rfl
  · lift w to Nat using nonneg_of_decode h
    exact_mod_cast ((decode_natCast_eq_ok hi).1 h).1

/-- The mode digits of a decoded word. -/
theorem mode_digit_of_decode {w : Int} {i : Instr} (h : decode w = .ok i) (hi : i ≠ .halt) {k : Nat} {m : Mode}
    (hm : i.modes[k]? = some m) : w / 10 ^ (k + 2) % 10 = modeDigit m := by
  lift w to Nat using nonneg_of_decode h
  exact_mod_cast ((decode_natCast_eq_ok hi).1 h).2 k m hm

theorem modeDigit_eq_one_iff {m : Mode} : modeDigit m = 1 ↔ m = .immediate := by
  cases m <;> decide

/-- Legality (R54): no address parameter has mode Immediate. -/
theorem Instr.wellFormed_iff {i : Instr} : i.wellFormed = true ↔ (.address, .immediate) ∉ i.params := by
  have hlegal (p : Role × Mode) : p.2.legalFor p.1 = true ↔ p ≠ (.address, .immediate) := by
    obtain ⟨r, m⟩ := p
    cases r <;> cases m <;> decide
  simp only [Instr.wellFormed, List.all_eq_true, hlegal]
  exact ⟨fun h hmem => h _ hmem rfl, fun h p hp hpe => h (hpe ▸ hp)⟩

theorem Instr.wellFormed_eq_false_iff {i : Instr} : i.wellFormed = false ↔ (.address, .immediate) ∈ i.params := by
  rw [← Bool.not_eq_true, Instr.wellFormed_iff, not_not]

/-- A decoded instruction is ill-formed exactly where its word is invalid by R56 (d). -/
theorem wellFormed_eq_false_iff_of_decode {w : Int} {i : Instr} (h : decode w = .ok i) :
    i.wellFormed = false ↔ immediateDestination w := by
  unfold immediateDestination
  rw [opcode_field_of_decode h]
  cases i with
  | add m0 m1 m2 | multiply m0 m1 m2 | lessThan m0 m1 m2 | equals m0 m1 m2 =>
    have hdigit : w / 10000 % 10 = modeDigit m2 := mode_digit_of_decode h (by simp) (k := 2) rfl
    simp [Instr.wellFormed_eq_false_iff, Instr.params, Instr.opcode, countOfCode, hdigit, modeDigit_eq_one_iff,
      @eq_comm _ Mode.immediate]
  | input m0 =>
    have hdigit : w / 100 % 10 = modeDigit m0 := mode_digit_of_decode h (by simp) (k := 0) rfl
    simp [Instr.wellFormed_eq_false_iff, Instr.params, Instr.opcode, countOfCode, hdigit, modeDigit_eq_one_iff,
      @eq_comm _ Mode.immediate]
  | output | jumpIfTrue | jumpIfFalse | adjustRelativeBase | halt =>
    simp [Instr.wellFormed_eq_false_iff, Instr.params, Instr.opcode, countOfCode]

/-- The three modes. -/
def Mode.all : List Mode := [.position, .immediate, .relative]

theorem Mode.mem_all (m : Mode) : m ∈ Mode.all := by
  cases m <;> decide

/-- All instructions: each operation with each choice of modes (R52, R54). -/
def Instr.all : List Instr :=
  .halt :: Mode.all.flatMap fun m0 =>
    .input m0 :: .output m0 :: .adjustRelativeBase m0 :: Mode.all.flatMap fun m1 =>
      .jumpIfTrue m0 m1 :: .jumpIfFalse m0 m1 :: Mode.all.flatMap fun m2 =>
        [.add m0 m1 m2, .multiply m0 m1 m2, .lessThan m0 m1 m2, .equals m0 m1 m2]

theorem Instr.mem_all (i : Instr) : i ∈ Instr.all := by
  cases i <;> simp [Instr.all, Mode.mem_all]

theorem Instr.forall_of_all {P : Instr → Prop} (h : ∀ i ∈ Instr.all, P i) : ∀ i, P i := fun i => h i i.mem_all

/-- The word decodes to a legal instruction whose canonical word it is. -/
def isLegalWord (w : Int) : Bool :=
  match decode w with
  | .ok i => i.wellFormed && encode i == w
  | .error _ => false

theorem isLegalWord_iff {w : Int} : isLegalWord w = true ↔ ∃ i : Instr, i.wellFormed = true ∧ encode i = w := by
  unfold isLegalWord
  constructor
  · intro h
    split at h
    case h_1 i _ => exact ⟨i, by simpa using h⟩
    case h_2 => cases h
  · rintro ⟨i, hwf, rfl⟩
    simp [decode_encode, hwf]

end Sys2Proof

namespace Sys2Proof.Proofs

/-- Settles O8: the failures are those of the opcode field and of the mode digits the operation examines. -/
theorem decoderFailsExactly : Obligations.DecoderFailsExactly :=
  ⟨fun _ => decode_eq_error_iff, rfl, rfl⟩

/-- Settles O9: the Decoder answers a legal instruction with this canonical word for each listed word, and there are
finitely many instructions to find in the list. -/
theorem legalWordsAreTheListed : Obligations.LegalWordsAreTheListed := by
  intro w
  refine ⟨?listed, fun hw => isLegalWord_iff.1 ?legal⟩
  case listed =>
    rintro ⟨i, hwf, rfl⟩
    revert i
    apply Instr.forall_of_all
    rw [← List.all_iff_forall_prop]
    decide
  case legal =>
    revert w
    decide

/-- Settles O1, by running the Decoder on each of the words. -/
theorem workedDecodesOfTheSpec : Obligations.WorkedDecodesOfTheSpec := by
  refine ⟨rfl, rfl, rfl, rfl, rfl, fun w hw => ?_⟩
  fin_cases hw <;> exact ⟨_, rfl⟩

/-- Settles O2, by running the Decoder on each of the words. -/
theorem oneWordOfEveryOperation : Obligations.OneWordOfEveryOperation :=
  ⟨rfl, rfl, rfl, rfl, rfl, rfl, rfl, rfl, rfl, rfl⟩

end Sys2Proof.Proofs
end

section
/-! PROOFS. The Decoder's ports (spec/40_decoder.md R81) and the spec's assembly lines (spec/30_encoding.md R61). -/

namespace Sys2Proof

theorem portMode_of_getElem? {i : Instr} {k : Nat} {m : Mode} (raw : Int) (h : i.modes[k]? = some m) :
    portMode raw i k = modeDigit m := by
  simp [portMode, h]

theorem portOp_eq (i : Instr) : portOp i = if i = .halt then 10 else i.opcode := by
  cases i <;> rfl

end Sys2Proof

namespace Sys2Proof.Machine

theorem asmWords_of_wellFormed {i : Instr} (operands : List (AsmOperand Int)) (h : (.address, .immediate) ∉ i.params) :
    asmWords i operands = some (encode i :: operands.map asmWord) := if_pos (Instr.wellFormed_iff.2 h)

theorem asmWords_of_ill_formed {i : Instr} (operands : List (AsmOperand Int))
    (h : (.address, .immediate) ∈ i.params) : asmWords i operands = none :=
  if_neg fun hwf => Instr.wellFormed_iff.1 hwf h

section
variable {i : Instr} {a b d : AsmOperand Int} (h : (.address, .immediate) ∉ i.params)
include h

theorem asmWords_one (hm : i.modes = [asmMode a]) :
    asmWords i [a] = some [i.opcode + 100 * (modeDigit (asmMode a) : Int), asmWord a] := by
  simp [asmWords_of_wellFormed [a] h, encode, opcodeWord, hm, modeDigitsFrom]

theorem asmWords_two (hm : i.modes = [asmMode a, asmMode b]) :
    asmWords i [a, b] = some [i.opcode + 100 * (modeDigit (asmMode a) : Int) + 1000 * (modeDigit (asmMode b) : Int),
      asmWord a, asmWord b] := by
  simp [asmWords_of_wellFormed [a, b] h, encode, opcodeWord, hm, modeDigitsFrom, add_assoc]

theorem asmWords_three (hm : i.modes = [asmMode a, asmMode b, asmMode d]) :
    asmWords i [a, b, d] = some [i.opcode + 100 * (modeDigit (asmMode a) : Int) +
      1000 * (modeDigit (asmMode b) : Int) + 10000 * (modeDigit (asmMode d) : Int), asmWord a, asmWord b,
      asmWord d] := by
  simp [asmWords_of_wellFormed [a, b, d] h, encode, opcodeWord, hm, modeDigitsFrom, add_assoc]

end

end Sys2Proof.Machine

namespace Sys2Proof.Proofs

open Sys2Proof.Machine

/-- Settles O10: each port is the field of the decode it is named after; on a failure only `ok` is fixed. -/
theorem decoderPortsShowTheDecode : Obligations.DecoderPortsShowTheDecode := by
  intro raw
  refine ⟨fun i h => ?decodes, fun f h => ?fails⟩
  case decodes =>
    simp only [decoderPorts, h]
    exact ⟨trivial, portOp_eq i, trivial, fun _ => portMode_of_getElem? raw, fun _ => portMode_of_getElem? raw,
      fun _ => portMode_of_getElem? raw⟩
  case fails => simp only [decoderPorts, h]

/-- Settles O11: an Immediate destination is the only ill-formed line; a legal one is its canonical word, then its
operands' numbers. -/
theorem assembledWordsOfEveryLine : Obligations.AssembledWordsOfEveryLine := by
  intro a b d
  refine ⟨fun hd => ⟨?add, ?mul, ?lt, ?eq, ?inp⟩, fun hd => ⟨?_, ?_, ?_, ?_, ?_⟩, ?out, ?jnz, ?jz, ?arb, rfl⟩
  case add | mul | lt | eq => exact asmWords_three (by simp [Instr.params, hd.symm]) rfl
  case inp => exact asmWords_one (by simp [Instr.params, hd.symm]) rfl
  case out | arb => exact asmWords_one (by simp [Instr.params]) rfl
  case jnz | jz => exact asmWords_two (by simp [Instr.params]) rfl
  all_goals exact asmWords_of_ill_formed _ (by simp [Instr.params, hd])

end Sys2Proof.Proofs
end

section
/-! PROOFS. Canonical memories are their reads (spec/10_state.md R21), what construction leaves (R27), and what the host
inspects (spec/70_reset_and_hazards.md R178, R179). -/

namespace Sys2Proof.Machine

open Sys2Proof.Safety

/-- A canonical memory starts at its lowest non-zero cell. -/
theorem Memory.le_of_read_ne_zero {c : Nat × Int} {m : Memory} (h : Memory.wf (c :: m) = true) {a : Nat}
    (ha : Memory.read (c :: m) a ≠ 0) : c.1 ≤ a := by
  obtain ⟨-, hlt, -⟩ := (Memory.wf_cons c m).1 h
  by_contra hac
  refine ha (Memory.read_below _ _ fun d hd => ?_)
  rcases List.mem_cons.1 hd with rfl | hd
  · omega
  · exact (Nat.lt_of_not_le hac).trans (hlt d hd)

theorem Memory.read_head (c : Nat × Int) (m : Memory) : Memory.read (c :: m) c.1 = c.2 := if_pos rfl

/-- The cells behind the first are those of the memory without it. -/
theorem Memory.read_tail {c : Nat × Int} {m : Memory} (h : Memory.wf (c :: m) = true) (a : Nat) :
    Memory.read m a = if a = c.1 then 0 else Memory.read (c :: m) a := by
  obtain ⟨-, hlt, -⟩ := (Memory.wf_cons c m).1 h
  split
  case isTrue ha => exact Memory.read_below _ _ (ha ▸ hlt)
  case isFalse ha => exact (if_neg (Ne.symm ha)).symm

theorem Memory.eq_of_read_eq {m m' : Memory} (hm : m.wf = true) (hm' : m'.wf = true)
    (h : ∀ a, m.read a = m'.read a) : m = m' := by
  induction m generalizing m' with
  | nil =>
    cases m' with
    | nil => rfl
    | cons c' m' =>
      obtain ⟨h0, -, -⟩ := (Memory.wf_cons c' m').1 hm'
      exact absurd ((h c'.1).trans (Memory.read_head c' m')).symm h0
  | cons c m ih =>
    obtain ⟨h0, -, hw⟩ := (Memory.wf_cons c m).1 hm
    cases m' with
    | nil => exact absurd ((Memory.read_head c m).symm.trans (h c.1)) h0
    | cons c' m' =>
      obtain ⟨h0', -, hw'⟩ := (Memory.wf_cons c' m').1 hm'
      have hle : c'.1 ≤ c.1 := Memory.le_of_read_ne_zero hm' (by rwa [← h, Memory.read_head])
      have hge : c.1 ≤ c'.1 := Memory.le_of_read_ne_zero hm (by rwa [h, Memory.read_head])
      have haddr : c.1 = c'.1 := le_antisymm hge hle
      have hword : c.2 = c'.2 := by
        rw [← Memory.read_head c m, h, haddr, Memory.read_head]
      have htail : m = m' := ih hw hw' fun a => by
        rw [Memory.read_tail hm, Memory.read_tail hm', h, haddr]
      rw [Prod.ext haddr hword, htail]

theorem reset_eq_construct : State.reset = construct [] [] := rfl

theorem good_construct (image inputs : List Int) : good (construct image inputs) :=
  ⟨Memory.wf_load image [] 0 rfl, by simp [construct, State.reset], by simp [construct, State.reset]⟩

theorem inspectable_of_stopped {s : State} (h : s.runState = .halted ∨ s.runState = .faulted) :
    inspectable s = true := by
  rcases h with h | h <;> simp [inspectable, h]

theorem not_inspectable_of_ready_or_running {s : State} (h : s.runState = .ready ∨ s.runState = .running) :
    inspectable s = false := by
  rcases h with h | h <;> simp [inspectable, h]

theorem inspectMem_of_nonneg {s : State} {lo hi : Int} (h : inspectable s = true) (hlo : 0 ≤ lo) :
    inspectMem s lo hi = some ((List.range (hi + 1 - lo).toNat).map fun k => s.mem.read (lo.toNat + k)) := by
  simp [inspectMem, h, hlo]

theorem inspectMem_of_neg {s : State} {lo hi : Int} (hlo : lo < 0) (hle : lo ≤ hi) : inspectMem s lo hi = none := by
  simp [inspectMem, hlo, hle]

end Sys2Proof.Machine

namespace Sys2Proof.Proofs

open Sys2Proof.Machine

/-- Settles O14, by induction on the representation: two canonical memories with equal reads start at one lowest cell,
and read alike behind it. -/
theorem canonicalMemoryIsItsReads : Obligations.CanonicalMemoryIsItsReads :=
  fun _ _ => Memory.eq_of_read_eq

/-- Settles O15: the image is the only thing loaded, every other field is that of the reset state. -/
theorem constructionLeaves : Obligations.ConstructionLeaves := fun image inputs =>
  ⟨construct_mem_read image inputs, rfl, rfl, rfl, rfl, rfl, rfl⟩

/-- Settles O16: the empty image loads nothing. -/
theorem resetIsEmptyConstruction : Obligations.ResetIsEmptyConstruction :=
  ⟨reset_eq_construct, Memory.read_nil⟩

/-- Settles O54: every construction loads a canonical memory, and reset is the empty one. -/
theorem constructionIsGood : Obligations.ConstructionIsGood :=
  ⟨reset_eq_construct ▸ good_construct [] [], RunState.noConfusion, rfl, fun image inputs =>
    ⟨good_construct image inputs, RunState.noConfusion, rfl⟩⟩

/-- Settles O17: a stopped engine passes the one test of the status, and the range is refused for its sign alone. -/
theorem inspectionAnswersTheRange : Obligations.InspectionAnswersTheRange := by
  intro s lo hi hs
  have h := inspectable_of_stopped hs
  refine ⟨if_pos h, fun hlo => ⟨_, inspectMem_of_nonneg h hlo, by simp, fun k hk => ?_⟩, inspectMem_of_neg⟩
  rw [List.length_map, List.length_range] at hk
  rw [List.getElem?_map, List.getElem?_range hk, Option.map_some]

/-- Settles O18: each of the three operations first asks for a stopped engine. -/
theorem noInspectionDuringARun : Obligations.NoInspectionDuringARun := by
  intro s lo hi hs
  have h := not_inspectable_of_ready_or_running hs
  refine ⟨by simp [inspectOut, h], by simp [inspectMem, h], ?status⟩
  rcases hs with hs | hs <;> simp [inspectStatus, hs]

end Sys2Proof.Proofs
end

section
/-! PROOFS. The address parameter (spec/41_engine_cycle.md R89, R92), and the instructions that store: Add and Multiply
(spec/42_arithmetic.md R110, R111), LessThan and Equals (spec/45_compare.md R125, R126), Input (spec/43_input_output.md
R115); and JumpIfTrue (spec/44_jumps.md R120). -/

namespace Sys2Proof

/-- The opcode word of JumpIfTrue in each of its nine mode pairs (30 R52, R54). -/
theorem decode_jumpIfTrue_word (m0 m1 : Mode) :
    decode (5 + 100 * modeDigit m0 + 1000 * modeDigit m1) = .ok (.jumpIfTrue m0 m1) := by
  cases m0 <;> cases m1 <;> rfl

end Sys2Proof

namespace Sys2Proof.Machine

open Sys2Proof.Safety

section
variable {s : State} {i : Nat} {w : Int} (hw : fetchParam s i = .ok w)
include hw

theorem resolveAddress_position : resolveAddress s i .position = checkAddr w := by
  rw [resolveAddress, hw]; rfl

theorem resolveAddress_relative : resolveAddress s i .relative = checkAddr (s.rb + w) := by
  rw [resolveAddress, hw]; rfl

end

/-- The `next_ip` of an instruction with three parameters (41 R96, 10 R13). -/
theorem advance_three (s : State) : advance s 3 = { s with ip := s.ip + 4 } :=
  congrArg (setIp s) (Int.add_assoc s.ip 1 3)

theorem lessThanWord_eq (a b : Int) : lessThanWord a b = if a < b then 1 else 0 := by
  simp [lessThanWord, truthWord]

theorem equalsWord_eq (a b : Int) : equalsWord a b = if a = b then 1 else 0 := by
  simp [equalsWord, truthWord]

/-- What completing says of the shape V V A (R52). -/
theorem inRange_of_completes_three {i : Instr} {m0 m1 m2 : Mode} {s : State} (hc : completes i s)
    (hp : i.params = [(.value, m0), (.value, m1), (.address, m2)]) :
    m2 ≠ .immediate ∧ inRange s 0 m0 ∧ inRange s 1 m1 ∧ inRange s 2 m2 := by
  obtain ⟨hwf, hrange, -⟩ := hc
  have hlegal := Instr.wellFormed_iff.1 hwf
  rw [hp] at hlegal hrange
  refine ⟨fun h => hlegal (by simp [h]), ?_⟩
  simpa [allInRange] using hrange

/-- What completing says of Input's shape A (R52). -/
theorem inRange_of_completes_input {m0 : Mode} {s : State} (hc : completes (.input m0) s) :
    m0 ≠ .immediate ∧ inRange s 0 m0 := by
  obtain ⟨hwf, hrange, -⟩ := hc
  refine ⟨fun h => Instr.wellFormed_iff.1 hwf (by simp [Instr.params, h]), ?_⟩
  simpa [Instr.params, allInRange] using hrange

section
variable {m0 m1 m2 : Mode} {s : State} (op : Int → Int → Int) (hip : 0 ≤ s.ip)
include hip

/-- Past its checks an instruction of the shape V V A writes one Word and moves `ip`. -/
theorem settle_storeBinary_of_inRange
    (h : m2 ≠ .immediate ∧ inRange s 0 m0 ∧ inRange s 1 m1 ∧ inRange s 2 m2) :
    settle s (storeBinary op m0 m1 m2 s) = .next { s with
      mem := s.mem.write (targetOf s 2 m2).toNat (op (valueOf s 0 m0) (valueOf s 1 m1)), ip := s.ip + 4 } := by
  rw [storeBinary_eq op m0 m1 m2 s hip, if_neg h.1, if_pos h.2, settle_ok, advance_three]
  rfl

theorem faultsWith_storeBinary_of_immediate (h : m2 = .immediate) :
    faultsWith (settle s (storeBinary op m0 m1 m2 s)) .invalidInstruction := by
  rw [storeBinary_eq op m0 m1 m2 s hip, if_pos h]
  exact faultsWith_faultedState _ s

theorem faultsWith_storeBinary_of_not_inRange (h2 : m2 ≠ .immediate)
    (h : ¬ (inRange s 0 m0 ∧ inRange s 1 m1 ∧ inRange s 2 m2)) :
    faultsWith (settle s (storeBinary op m0 m1 m2 s)) .invalidAddress := by
  rw [storeBinary_eq op m0 m1 m2 s hip, if_neg h2, if_neg h]
  exact faultsWith_faultedState _ s

theorem exec_input_of_inRange (h0 : m0 ≠ .immediate) (hr : inRange s 0 m0) {v : Int} {rest : List Int}
    (hq : s.inq = v :: rest) : exec (.input m0) s =
      .next { s with mem := s.mem.write (targetOf s 0 m0).toNat v, inq := rest, ip := s.ip + 2 } := by
  rw [exec, execInput_eq m0 s hip, if_neg h0, if_pos hr, hq]
  simp only [advance_one]
  rfl

theorem faultsWith_input_of_immediate (h0 : m0 = .immediate) :
    faultsWith (exec (.input m0) s) .invalidInstruction := by
  rw [exec, execInput_eq m0 s hip, if_pos h0]
  exact faultsWith_faultedState _ s

theorem faultsWith_input_of_not_inRange (h0 : m0 ≠ .immediate) (hr : ¬ inRange s 0 m0) :
    faultsWith (exec (.input m0) s) .invalidAddress := by
  rw [exec, execInput_eq m0 s hip, if_neg h0, if_neg hr]
  exact faultsWith_faultedState _ s

theorem faultsWith_input_of_empty (h0 : m0 ≠ .immediate) (hr : inRange s 0 m0) (hq : s.inq = []) :
    faultsWith (exec (.input m0) s) .inputExhausted := by
  rw [exec, execInput_eq m0 s hip, if_neg h0, if_pos hr, hq]
  exact faultsWith_faultedState _ s

end

end Sys2Proof.Machine

namespace Sys2Proof.Proofs

open Sys2Proof.Machine

/-- Settles O20: the word at `ip + 1 + i` is the fetched parameter word, and the address it forms meets the one
check. -/
theorem addressResolution : Obligations.AddressResolution := by
  intro s i _ w hread
  have hw : fetchParam s i = .ok w := hread
  refine ⟨?position, ?relative, rfl, rfl, rfl⟩
  case position => exact (resolveAddress_position hw).trans (checkAddr_eq w)
  case relative => exact (resolveAddress_relative hw).trans (checkAddr_eq (s.rb + w))

/-- Settles O21, by the shape V V A at the exact sum. -/
theorem addWritesTheSum : Obligations.AddWritesTheSum := fun _ _ _ _ hip =>
  ⟨fun hc => settle_storeBinary_of_inRange _ hip (inRange_of_completes_three hc rfl),
    faultsWith_storeBinary_of_immediate _ hip, faultsWith_storeBinary_of_not_inRange _ hip⟩

/-- Settles O22, by the shape V V A at the exact product. -/
theorem multiplyWritesTheProduct : Obligations.MultiplyWritesTheProduct := fun _ _ _ _ hip =>
  ⟨fun hc => settle_storeBinary_of_inRange _ hip (inRange_of_completes_three hc rfl),
    faultsWith_storeBinary_of_immediate _ hip, faultsWith_storeBinary_of_not_inRange _ hip⟩

/-- Settles O23, by the shape V V A at the truth word of the strict comparison. -/
theorem lessThanWritesTheTruthWord : Obligations.LessThanWritesTheTruthWord := fun _ _ _ _ hip =>
  ⟨fun hc => lessThanWord_eq _ _ ▸ settle_storeBinary_of_inRange _ hip (inRange_of_completes_three hc rfl),
    faultsWith_storeBinary_of_immediate _ hip, faultsWith_storeBinary_of_not_inRange _ hip⟩

/-- Settles O24, by the shape V V A at the truth word of the equality. -/
theorem equalsWritesTheTruthWord : Obligations.EqualsWritesTheTruthWord := fun _ _ _ _ hip =>
  ⟨fun hc => equalsWord_eq _ _ ▸ settle_storeBinary_of_inRange _ hip (inRange_of_completes_three hc rfl),
    faultsWith_storeBinary_of_immediate _ hip, faultsWith_storeBinary_of_not_inRange _ hip⟩

/-- Settles O25: the write mode, the address and the queue are checked in this order, and past them the front of the
queue is written. -/
theorem inputPopsIntoMemory : Obligations.InputPopsIntoMemory := by
  intro m0 s hip
  refine ⟨fun v rest hq hc => ?commits, faultsWith_input_of_immediate hip, faultsWith_input_of_not_inRange hip,
    faultsWith_input_of_empty hip⟩
  obtain ⟨h0, hr⟩ := inRange_of_completes_input hc
  exact exec_input_of_inRange hip h0 hr hq

/-- Settles O27: the addresses of the two parameters are the only checks; past them the commit is an `ip` alone. -/
theorem jumpIfTrueJumpsOnNonZero : Obligations.JumpIfTrueJumpsOnNonZero := by
  intro m0 m1 s hip
  refine ⟨decode_jumpIfTrue_word m0 m1, exec_jumpIfTrue_of_inRange hip, fun h => ?faults⟩
  have hfault : exec (.jumpIfTrue m0 m1) s = .next (faultedState .invalidAddress s) :=
    settle_jumpWhen_of_not_inRange hip _ h
  exact hfault ▸ faultsWith_faultedState .invalidAddress s

end Sys2Proof.Proofs
end

section
/-! PROOFS. Frames (spec/41_engine_cycle.md R97, spec/60_exceptions.md R147): what each instruction can answer from any
state, and what it leaves unchanged. -/

namespace Sys2Proof.Machine

open Sys2Proof.Safety

/-- What Add, Multiply, LessThan and Equals can answer. -/
theorem exec_store_cases {i : Instr} {m0 m1 m2 : Mode} {s t : State}
    (hi : i = .add m0 m1 m2 ∨ i = .multiply m0 m1 m2 ∨ i = .lessThan m0 m1 m2 ∨ i = .equals m0 m1 m2)
    (h : exec i s = .next t) :
    (∃ d v, resolveAddress s 2 m2 = .ok d ∧ t = advance (setCell s d v) 3) ∨ ∃ c, t = faultedState c s := by
  obtain ⟨op, hop⟩ : ∃ op, exec i s = settle s (storeBinary op m0 m1 m2 s) := by
    rcases hi with rfl | rfl | rfl | rfl <;> exact ⟨_, rfl⟩
  rcases settle_cases (hop.symm.trans h) with hok | ⟨c, -, rfl⟩
  · obtain ⟨a, b, d, -, -, hd, rfl⟩ := storeBinary_ok hok
    exact .inl ⟨d, op a b, hd, rfl⟩
  · exact .inr ⟨c, rfl⟩

/-- What Input can answer. -/
theorem exec_input_cases {m0 : Mode} {s t : State} (h : exec (.input m0) s = .next t) :
    (∃ d v, resolveAddress s 0 m0 = .ok d ∧ t = advance (setCell { s with inq := s.inq.tail } d v) 1) ∨
      ∃ c, t = faultedState c s := by
  rcases settle_cases h with hok | ⟨c, -, rfl⟩
  · obtain ⟨-, -, hok⟩ := exists_ok_of_bind_eq_ok hok
    obtain ⟨d, hd, hok⟩ := exists_ok_of_bind_eq_ok hok
    obtain ⟨⟨v, u⟩, hpop, hcommit⟩ := exists_ok_of_bind_eq_ok hok
    cases hcommit
    exact .inl ⟨d, v, hd, by rw [inPop_ok hpop]⟩
  · exact .inr ⟨c, rfl⟩

theorem exec_output_cases {m0 : Mode} {s t : State} (h : exec (.output m0) s = .next t) :
    (∃ a, t = advance (outPush s a) 1) ∨ ∃ c, t = faultedState c s := by
  rcases settle_cases h with hok | ⟨c, -, rfl⟩
  · obtain ⟨a, -, hcommit⟩ := exists_ok_of_bind_eq_ok hok
    cases hcommit
    exact .inl ⟨a, rfl⟩
  · exact .inr ⟨c, rfl⟩

theorem exec_adjustRelativeBase_cases {m0 : Mode} {s t : State} (h : exec (.adjustRelativeBase m0) s = .next t) :
    (∃ a, t = advance (addToBase s a) 1) ∨ ∃ c, t = faultedState c s := by
  rcases settle_cases h with hok | ⟨c, -, rfl⟩
  · obtain ⟨a, -, hcommit⟩ := exists_ok_of_bind_eq_ok hok
    cases hcommit
    exact .inl ⟨a, rfl⟩
  · exact .inr ⟨c, rfl⟩

/-- What the two jumps can answer. -/
theorem exec_jump_cases {i : Instr} {m0 m1 : Mode} {s t : State}
    (hi : i = .jumpIfTrue m0 m1 ∨ i = .jumpIfFalse m0 m1) (h : exec i s = .next t) :
    (∃ x, t = setIp s x) ∨ ∃ c, t = faultedState c s := by
  obtain ⟨taken, htaken⟩ : ∃ taken, exec i s = settle s (jumpWhen taken m0 m1 s) := by
    rcases hi with rfl | rfl <;> exact ⟨_, rfl⟩
  rcases settle_cases (htaken.symm.trans h) with hok | ⟨c, -, rfl⟩
  · exact .inl (jumpWhen_ok hok)
  · exact .inr ⟨c, rfl⟩

/-- Every instruction settles, and Halt always commits. -/
theorem exec_answers (i : Instr) (s : State) : ∃ t, exec i s = .next t := by
  cases i with
  | halt => exact ⟨_, exec_halt s⟩
  | add | multiply | input | output | jumpIfTrue | jumpIfFalse | lessThan | equals | adjustRelativeBase =>
    exact settle_answers s _

theorem step_answers {s : State} (h : s.runState ≠ .faulted) : ∃ t, step s = .next t := by
  cases hr : s.runState with
  | ready => exact ⟨_, step_ready hr⟩
  | halted => exact ⟨_, step_halted hr⟩
  | faulted => exact absurd hr h
  | running =>
    rw [step_running hr]
    cases fetch s with
    | error c => exact ⟨_, rfl⟩
    | ok i => exact exec_answers i s

end Sys2Proof.Machine

namespace Sys2Proof.Proofs

open Sys2Proof.Machine

/-- Settles O32: the commit is one `setCell` at the resolved destination, and where that does not resolve there is no
commit. -/
theorem frameOfTheFourStores : Obligations.FrameOfTheFourStores := by
  intro m0 m1 m2 s t i hi h
  rcases exec_store_cases hi h with ⟨d, v, hd, rfl⟩ | ⟨c, rfl⟩
  case inl =>
    refine ⟨rfl, rfl, rfl, fun d' hd' a ha => ?_, fun c hc => ?_, .inl ⟨rfl, rfl, rfl⟩⟩
    · cases hd.symm.trans hd'
      exact Memory.read_write_other _ _ ha
    · cases hd.symm.trans hc
  case inr =>
    exact ⟨rfl, rfl, rfl, fun _ _ _ _ => rfl, fun _ _ => rfl, .inr ⟨rfl, Option.some_ne_none c, rfl, rfl, rfl⟩⟩

/-- Settles O33: the commit pops the queue and is one `setCell` at the resolved destination. -/
theorem frameOfInput : Obligations.FrameOfInput := by
  intro m0 s t h
  rcases exec_input_cases h with ⟨d, v, hd, rfl⟩ | ⟨c, rfl⟩
  case inl =>
    refine ⟨rfl, rfl, fun d' hd' a ha => ?_, fun c hc => ?_, .inl ⟨rfl, rfl, rfl, rfl⟩⟩
    · cases hd.symm.trans hd'
      exact Memory.read_write_other _ _ ha
    · cases hd.symm.trans hc
  case inr =>
    exact ⟨rfl, rfl, fun _ _ _ _ => rfl, fun _ _ => rfl, .inr ⟨rfl, rfl, Option.some_ne_none c, rfl, rfl, rfl⟩⟩

/-- Settles O34: each of the five commits through one field's update, none of them memory's or the queue's. -/
theorem frameWithoutAStore : Obligations.FrameWithoutAStore := by
  intro m0 m1 s t i hi h
  rcases hi with rfl | rfl | rfl | rfl | rfl
  · rcases exec_output_cases h with ⟨a, rfl⟩ | ⟨c, rfl⟩ <;> simp
  · rcases exec_jump_cases (.inl rfl) h with ⟨x, rfl⟩ | ⟨c, rfl⟩ <;> simp
  · rcases exec_jump_cases (.inr rfl) h with ⟨x, rfl⟩ | ⟨c, rfl⟩ <;> simp
  · rcases exec_adjustRelativeBase_cases h with ⟨a, rfl⟩ | ⟨c, rfl⟩ <;> simp
  · cases h
    simp

/-- Settles O39: every meaning settles, in its commit or in its fault, and so does every status but FAULTED. -/
theorem everyStepAnswersAState : Obligations.EveryStepAnswersAState :=
  ⟨exec_answers, fun _ => step_answers⟩

end Sys2Proof.Proofs
end

section
/-! PROOFS. The commit of an instruction, field by field (spec/10_state.md R13, R15 to R23), the first fault
(spec/60_exceptions.md R146), and from them everything a step can do. -/

namespace Sys2Proof.Machine

open Sys2Proof.Safety

/-- The one write of a completing instruction, its address and its Word, if it stores (R110 to R126). -/
def storeOf (i : Instr) (s : State) : Option (Nat × Int) :=
  match i with
  | .add m0 m1 m2 => some ((targetOf s 2 m2).toNat, valueOf s 0 m0 + valueOf s 1 m1)
  | .multiply m0 m1 m2 => some ((targetOf s 2 m2).toNat, valueOf s 0 m0 * valueOf s 1 m1)
  | .lessThan m0 m1 m2 => some ((targetOf s 2 m2).toNat, lessThanWord (valueOf s 0 m0) (valueOf s 1 m1))
  | .equals m0 m1 m2 => some ((targetOf s 2 m2).toNat, equalsWord (valueOf s 0 m0) (valueOf s 1 m1))
  | .input m0 => some ((targetOf s 0 m0).toNat, s.inq.headD 0)
  | .output _ => none
  | .jumpIfTrue _ _ => none
  | .jumpIfFalse _ _ => none
  | .adjustRelativeBase _ => none
  | .halt => none

/-- A memory after at most one write. -/
def Memory.store (m : Memory) : Option (Nat × Int) → Memory
  | none => m
  | some w => m.write w.1 w.2

theorem Memory.wf_store {m : Memory} (w : Option (Nat × Int)) (h : m.wf = true) : (m.store w).wf = true := by
  cases w with
  | none => exact h
  | some w => exact Memory.wf_write m w.1 w.2 h

theorem commitOf_mem (i : Instr) (s : State) : (commitOf i s).mem = s.mem.store (storeOf i s) := by
  cases i with
  | jumpIfTrue | jumpIfFalse => simp only [commitOf]; split <;> rfl
  | _ => rfl

theorem commitOf_runState (i : Instr) (s : State) :
    (commitOf i s).runState = if i = .halt then .halted else s.runState := by
  cases i with
  | jumpIfTrue | jumpIfFalse => simp only [commitOf]; split <;> rfl
  | _ => rfl

@[simp] theorem commitOf_faultCause (i : Instr) (s : State) : (commitOf i s).faultCause = s.faultCause := by
  cases i with
  | jumpIfTrue | jumpIfFalse => simp only [commitOf]; split <;> rfl
  | _ => rfl

@[simp] theorem commitOf_faultIp (i : Instr) (s : State) : (commitOf i s).faultIp = s.faultIp := by
  cases i with
  | jumpIfTrue | jumpIfFalse => simp only [commitOf]; split <;> rfl
  | _ => rfl

/-- The table of R13. -/
theorem commitOf_ip (i : Instr) (s : State) : (commitOf i s).ip = ipAfter i s := by
  cases i with
  | jumpIfTrue | jumpIfFalse => simp only [commitOf, ipAfter]; split <;> simp [advance_two]
  | halt => rfl
  | add | multiply | lessThan | equals => simp [commitOf, ipAfter, advance_three]
  | input | output | adjustRelativeBase => simp [commitOf, ipAfter, advance_one]

theorem ipAfter_eq_nextIp {i : Instr} (s : State) (hi : ∀ m0 m1, i ≠ .jumpIfTrue m0 m1 ∧ i ≠ .jumpIfFalse m0 m1)
    (hh : i ≠ .halt) : ipAfter i s = s.ip + 1 + i.paramCount := by
  cases i with
  | jumpIfTrue m0 m1 => exact absurd rfl (hi m0 m1).1
  | jumpIfFalse m0 m1 => exact absurd rfl (hi m0 m1).2
  | halt => exact absurd rfl hh
  | _ => simp [ipAfter, Instr.paramCount, add_assoc]

/-- Only AdjustRelativeBase commits an `rb` (R15). -/
theorem commitOf_rb (i : Instr) (s : State) :
    (commitOf i s).rb = s.rb ∨ ∃ m0, i = .adjustRelativeBase m0 ∧ (commitOf i s).rb = s.rb + valueOf s 0 m0 := by
  cases i with
  | jumpIfTrue | jumpIfFalse => left; simp only [commitOf]; split <;> rfl
  | adjustRelativeBase m0 => exact .inr ⟨m0, rfl, rfl⟩
  | _ => exact .inl rfl

/-- Only Output commits a log (R118). -/
theorem commitOf_out (i : Instr) (s : State) :
    (commitOf i s).out = s.out ∨ ∃ m0, i = .output m0 ∧ (commitOf i s).out = s.out ++ [valueOf s 0 m0] := by
  cases i with
  | jumpIfTrue | jumpIfFalse => left; simp only [commitOf]; split <;> rfl
  | output m0 => exact .inr ⟨m0, rfl, rfl⟩
  | _ => exact .inl rfl

/-- Only Input commits a queue, and a completing one stores the front it removes (R117). -/
theorem commitOf_inq {i : Instr} {s : State} (hc : completes i s) :
    (commitOf i s).inq = s.inq ∨ ∃ m0 v, i = .input m0 ∧ s.inq = v :: (commitOf i s).inq ∧
      (commitOf i s).mem.read (targetOf s 0 m0).toNat = v := by
  cases i with
  | jumpIfTrue | jumpIfFalse => left; simp only [commitOf]; split <;> rfl
  | input m0 =>
    obtain ⟨-, -, hstarved⟩ := hc
    cases hq : s.inq with
    | nil => exact absurd ⟨rfl, hq⟩ hstarved
    | cons v rest => exact .inr ⟨m0, v, rfl, by simp [commitOf, hq], by simp [commitOf, hq]⟩
  | _ => exact .inl rfl

theorem faultOf_eq_invalidInstruction {i : Instr} {s : State} :
    faultOf i s = some .invalidInstruction ↔ i.wellFormed = false := by
  unfold faultOf
  split_ifs <;> simp_all

theorem faultOf_eq_invalidAddress {i : Instr} {s : State} :
    faultOf i s = some .invalidAddress ↔ i.wellFormed = true ∧ allInRange s 0 i.params = false := by
  unfold faultOf
  split_ifs <;> simp_all

theorem faultOf_eq_inputExhausted {i : Instr} {s : State} :
    faultOf i s = some .inputExhausted ↔ i.wellFormed = true ∧ allInRange s 0 i.params = true ∧ starved i s := by
  by_cases h1 : i.wellFormed <;> by_cases h2 : allInRange s 0 i.params <;> simp [faultOf, h1, h2]

/-- The first fault of R146 is that of the fetch, if it fails. -/
theorem firstFault_of_fetch_error {s : State} {c : FaultCause} (h : fetch s = .error c) : firstFault s = some c := by
  rw [fetch_eq] at h
  unfold firstFault
  split at h
  case isTrue hip => cases h; rw [if_pos hip]
  case isFalse hip =>
    rw [if_neg hip]
    cases hd : decode (wordAtIp s) <;> rw [hd] at h <;> cases h
    rfl

/-- The first fault of R146 is otherwise that of the fetched instruction. -/
theorem firstFault_of_fetches {s : State} {i : Instr} (h : fetches s i) : firstFault s = faultOf i s := by
  obtain ⟨hip, hd⟩ := h
  rw [firstFault, if_neg hip.not_gt, hd]
  rfl

/-- Where a first fault comes from: the fetch, or the fetched instruction. -/
theorem firstFault_eq_some_iff {s : State} {c : FaultCause} :
    firstFault s = some c ↔ fetch s = .error c ∨ ∃ i, fetches s i ∧ faultOf i s = some c := by
  refine ⟨fun h => ?_, ?_⟩
  · cases hf : fetch s with
    | error c' => exact .inl (congrArg _ (Option.some.inj ((firstFault_of_fetch_error hf).symm.trans h)))
    | ok i => exact .inr ⟨i, fetches_of_fetch hf, firstFault_of_fetches (fetches_of_fetch hf) ▸ h⟩
  · rintro (h | ⟨i, hi, h⟩)
    · exact firstFault_of_fetch_error h
    · rwa [firstFault_of_fetches hi]

/-- When a fetch fails (R87). -/
theorem fetch_eq_error_iff {s : State} {c : FaultCause} :
    fetch s = .error c ↔
      (s.ip < 0 ∧ c = .invalidAddress) ∨ (0 ≤ s.ip ∧ undecodable (wordAtIp s) ∧ c = .invalidInstruction) := by
  rw [fetch_eq, ← decode_eq_error_iff]
  rcases lt_or_ge s.ip 0 with hip | hip
  · simp [hip, hip.not_ge, eq_comm]
  · cases decode (wordAtIp s) <;> simp [hip, hip.not_gt, eq_comm]

theorem step_of_firstFault {s : State} {c : FaultCause} (hr : s.runState = .running) (h : firstFault s = some c) :
    step s = .next (faultedState c s) := by
  rw [step_running hr]
  cases hf : fetch s with
  | error c' =>
    rw [firstFault_of_fetch_error hf] at h
    cases h
    rfl
  | ok i =>
    have hi := fetches_of_fetch hf
    rw [firstFault_of_fetches hi] at h
    simp only [exec_eq i s hi.1, h]

theorem step_of_no_fault {s : State} (hr : s.runState = .running) (h : firstFault s = none) :
    ∃ i, fetches s i ∧ completes i s ∧ step s = .next (commitOf i s) := by
  cases hf : fetch s with
  | error c =>
    rw [firstFault_of_fetch_error hf] at h
    cases h
  | ok i =>
    have hi := fetches_of_fetch hf
    have hc : completes i s := faultOf_eq_none.1 (firstFault_of_fetches hi ▸ h)
    exact ⟨i, hi, hc, (step_of_fetches hr hi).trans (exec_of_completes hi.1 hc)⟩

/-- Everything a step that answers a state can do: the host's `run`, the stutter of HALTED, a fetched instruction's
commit, or the first fault. -/
theorem step_cases {s t : State} (h : step s = .next t) :
    (s.runState = .ready ∧ t = { s with runState := .running }) ∨ (s.runState = .halted ∧ t = s) ∨
      (s.runState = .running ∧ ∃ i, fetches s i ∧ completes i s ∧ t = commitOf i s) ∨
      (s.runState = .running ∧ ∃ c, firstFault s = some c ∧ t = faultedState c s) := by
  cases hr : s.runState with
  | ready => rw [step_ready hr] at h; cases h; exact .inl ⟨rfl, rfl⟩
  | halted => rw [step_halted hr] at h; cases h; exact .inr (.inl ⟨rfl, rfl⟩)
  | faulted => rw [step_faulted hr] at h; cases h
  | running =>
    refine .inr (.inr ?_)
    cases hfirst : firstFault s with
    | some c => rw [step_of_firstFault hr hfirst] at h; cases h; exact .inr ⟨rfl, c, rfl, rfl⟩
    | none =>
      obtain ⟨i, hi, hc, hstep⟩ := step_of_no_fault hr hfirst
      rw [hstep] at h
      cases h
      exact .inl ⟨rfl, i, hi, hc, rfl⟩

theorem commitOf_runState_of_running {i : Instr} {s : State} (hr : s.runState = .running) :
    (commitOf i s).runState = .running ∨ (commitOf i s).runState = .halted := by
  rw [commitOf_runState, hr]
  split
  · exact .inr rfl
  · exact .inl rfl

theorem commitOf_not_faulted {i : Instr} {s : State} (hr : s.runState = .running) :
    (commitOf i s).runState ≠ .faulted := by
  rcases commitOf_runState_of_running (i := i) hr with h | h <;> simp [h]

/-- A RUNNING step takes a fault exactly when that is the first. -/
theorem faultsWith_step_iff {s : State} {c : FaultCause} (hr : s.runState = .running) :
    faultsWith (step s) c ↔ firstFault s = some c := by
  constructor
  · rintro ⟨t, hstep, hfaulted, hcause⟩
    cases hfirst : firstFault s with
    | some c' =>
      rw [step_of_firstFault hr hfirst] at hstep
      cases hstep
      exact hcause
    | none =>
      obtain ⟨i, -, -, hcommit⟩ := step_of_no_fault hr hfirst
      cases hcommit.symm.trans hstep
      exact absurd hfaulted (commitOf_not_faulted hr)
  · intro h
    rw [step_of_firstFault hr h]
    exact faultsWith_faultedState c s

end Sys2Proof.Machine
end

section
/-! PROOFS. The step (spec/41_engine_cycle.md R86 to R98), its faults (spec/60_exceptions.md R141 to R147) and what
every step keeps (spec/10_state.md R13 to R23). -/

namespace Sys2Proof.Machine

open Sys2Proof.Safety

/-- An Input and nothing else is short of input, once its address resolved (R143). -/
theorem faultOf_eq_inputExhausted_iff_input {i : Instr} {s : State} :
    faultOf i s = some .inputExhausted ↔ ∃ m0, i = .input m0 ∧ m0 ≠ .immediate ∧ inRange s 0 m0 ∧ s.inq = [] := by
  rw [faultOf_eq_inputExhausted, Instr.wellFormed_iff]
  cases i with
  | input m0 => simp [Instr.params, allInRange, starved, Instr.opcode, @eq_comm _ Mode.immediate]
  | _ => simp [starved, Instr.opcode]

/-- The next state of a good state is good: it commits canonical memory with the fault fields as they were, or records
a fault at its own `ip`. -/
theorem good_of_step {s t : State} (hg : good s) (h : step s = .next t) : good t := by
  obtain ⟨hwf, hcause, hfip⟩ := hg
  rcases step_cases h with ⟨hr, rfl⟩ | ⟨hr, rfl⟩ | ⟨hr, i, -, -, rfl⟩ | ⟨hr, c, -, rfl⟩
  case inl =>
    have hnone : s.faultCause = none := by simpa [hr] using hcause
    exact ⟨hwf, by simp [hnone], by simp⟩
  case inr.inl => exact ⟨hwf, hcause, hfip⟩
  case inr.inr.inl =>
    have hnone : s.faultCause = none := by simpa [hr] using hcause
    have hnot := commitOf_not_faulted (i := i) hr
    exact ⟨commitOf_mem i s ▸ Memory.wf_store _ hwf, by simp [hnot, hnone], fun hf => absurd hf hnot⟩
  case inr.inr.inr => exact ⟨hwf, by simp, fun _ => rfl⟩

end Sys2Proof.Machine

namespace Sys2Proof.Proofs

open Sys2Proof.Machine Sys2Proof.Safety

/-- Settles O55, by the four things a step can do. -/
theorem everyStepKeepsGood : Obligations.EveryStepKeepsGood := fun _ _ => good_of_step

/-- Settles O35: a fetched instruction is run by the RUNNING branch as it stands. -/
theorem stepRunsTheDecodedInstruction : Obligations.StepRunsTheDecodedInstruction := fun _ _ => step_of_fetches

/-- Settles O36: a failed fetch is the first fault. -/
theorem failedFetchFaults : Obligations.FailedFetchFaults := by
  refine fun s hr => ⟨fun hip => ?negative, fun hip f hd => ?rejected⟩ <;>
    refine step_of_firstFault hr (firstFault_of_fetch_error (fetch_eq_error_iff.2 ?_))
  case negative => exact .inl ⟨hip, rfl⟩
  case rejected => exact .inr ⟨hip, decode_eq_error_iff.1 ⟨f, hd⟩, rfl⟩

/-- Settles O37: the READY branch is `beginRun`. -/
theorem runBeginsFromReady : Obligations.RunBeginsFromReady := fun _ => step_ready

/-- Settles O38: the two branches of the terminal states. -/
theorem terminalStatesAreNeverLeft : Obligations.TerminalStatesAreNeverLeft := fun _ => ⟨step_halted, step_faulted⟩

/-- Settles O40, by the four things a step can do; a commit's status is RUNNING or Halt's. -/
theorem runStateTransitions : Obligations.RunStateTransitions := by
  intro s t h
  rcases step_cases h with ⟨hr, rfl⟩ | ⟨hr, rfl⟩ | ⟨hr, i, -, -, rfl⟩ | ⟨hr, c, -, rfl⟩
  · exact .inl ⟨hr, rfl⟩
  · exact .inr (.inr ⟨hr, hr⟩)
  · exact .inr (.inl ⟨hr, (commitOf_runState_of_running hr).imp_right .inl⟩)
  · exact .inr (.inl ⟨hr, .inr (.inr rfl)⟩)

/-- Settles O41: the fetch, then `faultOf`, check in the order of R146, and a commit does not fault. -/
theorem firstFaultIsTaken : Obligations.FirstFaultIsTaken := by
  refine fun s hr => ⟨fun c hc => step_of_firstFault hr hc, fun hnone => ?commits⟩
  obtain ⟨i, -, -, hstep⟩ := step_of_no_fault hr hnone
  exact ⟨_, hstep, commitOf_not_faulted hr, commitOf_faultCause i s⟩

/-- Settles O42: of the four things a step can do only the fault ends FAULTED. -/
theorem faultsArePrecise : Obligations.FaultsArePrecise := by
  intro s t h ht
  rcases step_cases h with ⟨hr, rfl⟩ | ⟨hr, rfl⟩ | ⟨hr, i, -, -, rfl⟩ | ⟨hr, c, -, rfl⟩
  · cases ht
  · cases hr.symm.trans ht
  · exact absurd ht (commitOf_not_faulted hr)
  · exact ⟨c, rfl⟩

/-- Settles O43: InvalidInstruction is first where the Decoder rejects the word, or where the decoded instruction is
ill-formed, and both are said by its digits. -/
theorem invalidInstructionExactly : Obligations.InvalidInstructionExactly := by
  intro s hr
  rw [faultsWith_step_iff hr, firstFault_eq_some_iff, fetch_eq_error_iff]
  simp only [faultOf_eq_invalidInstruction]
  constructor
  · rintro ((⟨-, hc⟩ | ⟨hip, hw, -⟩) | ⟨i, ⟨hip, hd⟩, hwf⟩)
    · cases hc
    · exact ⟨hip, .inl hw⟩
    · exact ⟨hip, .inr ((wellFormed_eq_false_iff_of_decode hd).1 hwf)⟩
  · rintro ⟨hip, hw⟩
    cases hd : decode (wordAtIp s) with
    | error f => exact .inl (.inr ⟨hip, decode_eq_error_iff.1 ⟨f, hd⟩, trivial⟩)
    | ok i =>
      have hdecodable : ¬ undecodable (wordAtIp s) := by simp [← decode_eq_error_iff, hd]
      exact .inr ⟨i, ⟨hip, hd⟩, (wellFormed_eq_false_iff_of_decode hd).2 (hw.resolve_left hdecodable)⟩

/-- Settles O44: InvalidAddress is first where the fetch has no address, or past the write-mode check of the fetched
instruction. -/
theorem invalidAddressExactly : Obligations.InvalidAddressExactly := by
  intro s hr
  rw [faultsWith_step_iff hr, firstFault_eq_some_iff, fetch_eq_error_iff]
  simp [faultOf_eq_invalidAddress]

/-- Settles O45: the queue is checked last, and only by a fetched Input. -/
theorem inputExhaustedExactly : Obligations.InputExhaustedExactly := by
  intro s hr
  rw [faultsWith_step_iff hr, firstFault_eq_some_iff, fetch_eq_error_iff]
  simp only [faultOf_eq_inputExhausted_iff_input, reduceCtorEq, and_false, or_self, false_or]
  constructor
  · rintro ⟨_, hi, m0, rfl, hrest⟩
    exact ⟨m0, hi, hrest⟩
  · rintro ⟨m0, hi, hrest⟩
    exact ⟨_, hi, m0, rfl, hrest⟩

/-- Settles O46: HALTED is entered by a fetched Halt alone, whose commit is the status. -/
theorem haltedExactlyBy99 : Obligations.HaltedExactlyBy99 := by
  intro s t hr h
  have hne : s.runState ≠ .halted := by simp [hr]
  have hhalt (hf : fetches s .halt) : t = haltRun s := by
    rw [step_of_fetches hr hf, exec_halt] at h
    cases h
    rfl
  refine ⟨⟨fun ht => ?_, fun hw => ?_⟩, fun ht => ?_⟩
  · exact fetches_halt_iff.1 (fetches_halt_of_step_halted h hne ht).2
  · rw [hhalt (fetches_halt_iff.2 hw), haltRun_runState]
  · exact hhalt (fetches_halt_of_step_halted h hne ht).2

/-- Settles O47: a fault keeps `ip`, and a commit's `ip` is the table's. -/
theorem instructionPointerTable : Obligations.InstructionPointerTable := by
  intro s t i hr hi h
  refine ⟨fun ht => ?faulted, fun ht => ?commits, ipAfter_eq_nextIp s⟩
  all_goals
    rw [step_of_fetches hr hi, exec_eq i s hi.1] at h
    cases hf : faultOf i s <;> rw [hf] at h <;> cases h
  case faulted.none => exact absurd ht (commitOf_not_faulted hr)
  case faulted.some => rfl
  case commits.none => exact commitOf_ip i s
  case commits.some => exact absurd rfl ht

/-- Settles O48: of the four things a step can do only AdjustRelativeBase's commit changes `rb`. -/
theorem baseChangesOnlyByItsInstruction : Obligations.BaseChangesOnlyByItsInstruction := by
  intro s t h hrb
  rcases step_cases h with ⟨hr, rfl⟩ | ⟨hr, rfl⟩ | ⟨hr, i, hi, -, rfl⟩ | ⟨hr, c, -, rfl⟩
  case inr.inr.inl =>
    obtain ⟨m0, rfl, hadd⟩ := (commitOf_rb i s).resolve_left hrb
    exact ⟨hr, m0, hi, hadd⟩
  all_goals exact absurd rfl hrb

/-- Settles O49: of the four things a step can do only Input's commit changes the queue. -/
theorem inputQueueOnlyPops : Obligations.InputQueueOnlyPops := by
  intro s t h
  rcases step_cases h with ⟨hr, rfl⟩ | ⟨hr, rfl⟩ | ⟨hr, i, hi, hc, rfl⟩ | ⟨hr, c, -, rfl⟩
  case inr.inr.inl =>
    refine (commitOf_inq hc).imp_right ?_
    rintro ⟨m0, v, rfl, hpop⟩
    exact ⟨m0, v, hi, hpop⟩
  all_goals exact .inl rfl

/-- Settles O50: of the four things a step can do only Output's commit changes the log. -/
theorem outputLogOnlyGrows : Obligations.OutputLogOnlyGrows := by
  intro s t h
  rcases step_cases h with ⟨hr, rfl⟩ | ⟨hr, rfl⟩ | ⟨hr, i, hi, hc, rfl⟩ | ⟨hr, c, -, rfl⟩
  case inr.inr.inl =>
    refine (commitOf_out i s).imp_right ?_
    rintro ⟨m0, rfl, happend⟩
    exact ⟨m0, hi, happend⟩
  all_goals exact .inl rfl

/-- Settles O52: the Add's commit leaves its sum at `ip + 4`, which is where its `ip` goes. -/
theorem storeIsSeenByTheNextFetch : Obligations.StoreIsSeenByTheNextFetch := by
  intro m0 m1 m2 s j hr hi hc htarget hj
  set t := commitOf (.add m0 m1 m2) s with ht
  have hstep : step s = .next t := (step_of_fetches hr hi).trans (exec_of_completes hi.1 hc)
  have hip : t.ip = s.ip + 4 := commitOf_ip _ s
  have hword : wordAtIp t = valueOf s 0 m0 + valueOf s 1 m1 := by
    rw [wordAtIp, hip, ← htarget]
    exact Memory.read_write_same _ _ _
  refine ⟨t, hstep, hip, step_of_fetches hr ⟨?_, ?_⟩⟩
  · rw [hip]; have := hi.1; omega
  · rw [hword, hj]

end Sys2Proof.Proofs
end

section
/-! PROOFS. The accesses of a step (spec/20_memory.md R36, R37): where it writes, and that the cells it reads determine
it. -/

namespace Sys2Proof.Machine

open Sys2Proof.Safety

/-- The cell a parameter's value is read from, after its word (R91). -/
def paramReads (s : State) (k : Nat) (p : Role × Mode) : List Access :=
  if p.1 = .value ∧ p.2 ≠ .immediate then [.read (targetOf s k p.2)] else []

/-- The write an address parameter leaves pending (R92). -/
def paramWrites (s : State) (k : Nat) (p : Role × Mode) : List Access :=
  if p.1 = .address then [.write (targetOf s k p.2)] else []

theorem formAddress_paramWord (s : State) (k : Nat) (m : Mode) : formAddress s m (paramWord s k) = targetOf s k m := by
  cases m <;> rfl

/-- One parameter of the walk (R36): its word, its check, its read; its write waits for the end. -/
theorem paramAccesses_cons (s : State) (starved : Bool) (k : Nat) (p : Role × Mode) (rest : List (Role × Mode))
    (pending : List Access) (hp : p ≠ (.address, .immediate)) :
    paramAccesses s starved k (p :: rest) pending =
      .read (s.ip + 1 + k) ::
        if inRange s k p.2 then
          paramReads s k p ++ paramAccesses s starved (k + 1) rest (pending ++ paramWrites s k p)
        else [] := by
  obtain ⟨r, m⟩ := p
  have htarget := formAddress_paramWord s k m
  unfold paramWord at htarget
  by_cases h : targetOf s k m < 0 <;> cases r <;> cases m <;>
    simp_all [paramAccesses, paramReads, paramWrites, inRange]

theorem starvedInput_iff {i : Instr} {s : State} : starvedInput i s = true ↔ starved i s := by
  cases i <;> simp [starvedInput, starved, Instr.opcode]

/-- The writes the parameters from index `k` on leave pending. -/
def pendingWrites (s : State) : Nat → List (Role × Mode) → List Access
  | _, [] => []
  | k, p :: rest => paramWrites s k p ++ pendingWrites s (k + 1) rest

/-- The walk ends in its pending writes exactly when every parameter resolved and the queue has an element. -/
theorem write_mem_paramAccesses {s : State} {x : Int} {starved : Bool} {ps : List (Role × Mode)}
    (hlegal : (.address, .immediate) ∉ ps) (k : Nat) (pending : List Access) :
    .write x ∈ paramAccesses s starved k ps pending ↔
      starved = false ∧ allInRange s k ps = true ∧ .write x ∈ pending ++ pendingWrites s k ps := by
  induction ps generalizing k pending with
  | nil => cases starved <;> simp [paramAccesses, allInRange, pendingWrites]
  | cons p ps ih =>
    obtain ⟨hp, hps⟩ := not_or.1 (List.mem_cons.not.1 hlegal)
    have hreads : Access.write x ∉ paramReads s k p := by
      unfold paramReads
      split <;> simp
    rw [paramAccesses_cons s starved k p ps pending (Ne.symm hp)]
    by_cases hr : inRange s k p.2
    · simp [hr, hreads, ih hps, allInRange, pendingWrites]
    · simp [hr, allInRange]

theorem write_mem_instrAccesses {i : Instr} {s : State} {x : Int} :
    .write x ∈ instrAccesses i s ↔ completes i s ∧ .write x ∈ pendingWrites s 0 i.params := by
  unfold instrAccesses
  split
  case isTrue hwf =>
    rw [write_mem_paramAccesses (Instr.wellFormed_iff.1 hwf), List.nil_append, ← Bool.not_eq_true, starvedInput_iff]
    tauto
  case isFalse hwf => simp [completes, hwf]

theorem natCast_eq_iff_toNat_eq {a : Nat} {x : Int} (h : 0 ≤ x) : (a : Int) = x ↔ x.toNat = a := by omega

/-- The pending write of a completing instruction is the one it commits. -/
theorem write_mem_pendingWrites {i : Instr} {s : State} (hc : completes i s) (a : Nat) :
    .write (a : Int) ∈ pendingWrites s 0 i.params ↔ ∃ v, storeOf i s = some (a, v) := by
  cases i with
  | add m0 m1 m2 | multiply m0 m1 m2 | lessThan m0 m1 m2 | equals m0 m1 m2 =>
    obtain ⟨h2, -, -, hr⟩ := inRange_of_completes_three hc rfl
    have hcast := natCast_eq_iff_toNat_eq (a := a) (hr.resolve_left h2)
    simp [pendingWrites, paramWrites, Instr.params, storeOf, hcast]
  | input m0 =>
    obtain ⟨h0, hr⟩ := inRange_of_completes_input hc
    have hcast := natCast_eq_iff_toNat_eq (a := a) (hr.resolve_left h0)
    simp [pendingWrites, paramWrites, Instr.params, storeOf, hcast]
  | _ => simp [pendingWrites, paramWrites, Instr.params, storeOf]

theorem stepAccesses_of_fetches {s : State} {i : Instr} (h : fetches s i) :
    stepAccesses s = .read s.ip :: instrAccesses i s := by
  rw [stepAccesses, if_neg h.1.not_gt, fetch_of_fetches h]

theorem stepAccesses_of_fetch_error {s : State} {c : FaultCause} (h : fetch s = .error c) {x : Access}
    (hx : x ∈ stepAccesses s) : x = .read s.ip := by
  unfold stepAccesses at hx
  split at hx
  · cases hx
  · simpa [h] using hx

/-- The step of a completing instruction writes where its commit does. -/
theorem write_mem_stepAccesses_of_completes {s : State} {i : Instr} (hi : fetches s i) (hc : completes i s) (a : Nat) :
    .write (a : Int) ∈ stepAccesses s ↔ ∃ v, storeOf i s = some (a, v) := by
  rw [stepAccesses_of_fetches hi, List.mem_cons, write_mem_instrAccesses, and_iff_right hc, write_mem_pendingWrites hc]
  simp

/-- The step of a faulting instruction writes nowhere. -/
theorem write_not_mem_stepAccesses_of_fault {s : State} {c : FaultCause} (h : firstFault s = some c) (x : Int) :
    .write x ∉ stepAccesses s := by
  intro hx
  rcases firstFault_eq_some_iff.1 h with hf | ⟨i, hi, hf⟩
  · cases stepAccesses_of_fetch_error hf hx
  · rw [stepAccesses_of_fetches hi, List.mem_cons, write_mem_instrAccesses] at hx
    rcases hx with hx | ⟨hc, -⟩
    · cases hx
    · simp [faultOf_eq_none.2 hc] at hf

theorem Memory.read_store_of_eq {m : Memory} {w : Option (Nat × Int)} {a : Nat} {v : Int} (h : w = some (a, v)) :
    (m.store w).read a = v := by
  rw [h]
  exact Memory.read_write_same m a v

theorem Memory.read_store_of_ne {m : Memory} {w : Option (Nat × Int)} {a : Nat} (h : ¬ ∃ v, w = some (a, v)) :
    (m.store w).read a = m.read a := by
  cases w with
  | none => rfl
  | some w => exact Memory.read_write_other m w.2 fun ha => h ⟨w.2, by rw [ha]⟩

/-! Two states that differ in memory only: what they share where the memories agree on the cells that are read. -/

/-- The parameter names the same address with either memory, and, where it is a value, has the same value. -/
def SameParam (s : State) (m : Memory) (k : Nat) (p : Role × Mode) : Prop :=
  targetOf { s with mem := m } k p.2 = targetOf s k p.2 ∧
    (p.1 = .value → valueOf { s with mem := m } k p.2 = valueOf s k p.2)

section
variable {s : State} {m : Memory}

theorem targetOf_congr {k : Nat} (h : m.read (s.ip + 1 + k).toNat = s.mem.read (s.ip + 1 + k).toNat) (md : Mode) :
    targetOf { s with mem := m } k md = targetOf s k md := by
  simp only [targetOf, paramWord, h]

theorem inRange_congr {k : Nat} {md : Mode} (h : targetOf { s with mem := m } k md = targetOf s k md) :
    inRange { s with mem := m } k md ↔ inRange s k md := by
  simp only [inRange, h]

theorem valueOf_congr {k : Nat} {md : Mode} (h : m.read (s.ip + 1 + k).toNat = s.mem.read (s.ip + 1 + k).toNat)
    (hcell : md ≠ .immediate → m.read (targetOf s k md).toNat = s.mem.read (targetOf s k md).toNat) :
    valueOf { s with mem := m } k md = valueOf s k md := by
  simp only [valueOf, targetOf_congr h, paramWord, h]
  split
  case isTrue => rfl
  case isFalse hne => exact hcell hne

/-- Agreement on the cells the walk reads gives the same parameters, as far as the walk goes. -/
theorem params_congr {starved : Bool} {ps : List (Role × Mode)} (hip : 0 ≤ s.ip)
    (hlegal : (.address, .immediate) ∉ ps) (k : Nat) (pending : List Access)
    (h : ∀ a : Nat, .read (a : Int) ∈ paramAccesses s starved k ps pending → m.read a = s.mem.read a) :
    allInRange { s with mem := m } k ps = allInRange s k ps ∧
      (allInRange s k ps = true → ∀ j p, ps[j]? = some p → SameParam s m (k + j) p) := by
  induction ps generalizing k pending with
  | nil => simp [allInRange]
  | cons p ps ih =>
    obtain ⟨hp, hps⟩ := not_or.1 (List.mem_cons.not.1 hlegal)
    rw [paramAccesses_cons s starved k p ps pending (Ne.symm hp)] at h
    have hword : m.read (s.ip + 1 + k).toNat = s.mem.read (s.ip + 1 + k).toNat :=
      h _ (by rw [Int.toNat_of_nonneg (by omega)]; exact List.mem_cons_self)
    have htarget := targetOf_congr hword p.2
    have hiff := inRange_congr htarget
    by_cases hr : inRange s k p.2
    case neg => simp [allInRange, hr, hiff]
    case pos =>
      rw [if_pos hr] at h
      have hvalue (hv : p.1 = .value) : valueOf { s with mem := m } k p.2 = valueOf s k p.2 := by
        refine valueOf_congr hword fun hne => h _ ?_
        rw [Int.toNat_of_nonneg (hr.resolve_left hne)]
        simp [paramReads, hv, hne]
      obtain ⟨hrange, hparams⟩ := ih hps (k + 1) _ fun a ha =>
        h a (List.mem_cons_of_mem _ (List.mem_append_right _ ha))
      refine ⟨by simp only [allInRange, hiff, hrange], fun hall => ?_⟩
      rw [forall_getElem?_cons]
      refine ⟨⟨htarget, hvalue⟩, fun j q hq => ?_⟩
      rw [← Nat.succ_add_eq_add_succ]
      exact hparams (by simpa [allInRange, hr] using hall) j q hq

/-- Instructions with the same parameters commit alike, each to its own memory. -/
theorem commitOf_congr {i : Instr} (h : ∀ j p, i.params[j]? = some p → SameParam s m j p) :
    commitOf i { s with mem := m } = { commitOf i s with mem := m.store (storeOf i s) } := by
  cases i with
  | add | multiply | lessThan | equals =>
    obtain ⟨-, h0⟩ := h 0 _ rfl
    obtain ⟨-, h1⟩ := h 1 _ rfl
    obtain ⟨h2, -⟩ := h 2 _ rfl
    simp only [commitOf, storeOf, h0 rfl, h1 rfl, h2]
    rfl
  | input =>
    obtain ⟨h0, -⟩ := h 0 _ rfl
    simp only [commitOf, storeOf, h0]
    rfl
  | output | adjustRelativeBase =>
    obtain ⟨-, h0⟩ := h 0 _ rfl
    simp only [commitOf, h0 rfl]
    rfl
  | jumpIfTrue | jumpIfFalse =>
    obtain ⟨-, h0⟩ := h 0 _ rfl
    obtain ⟨-, h1⟩ := h 1 _ rfl
    simp only [commitOf, h0 rfl, h1 rfl]
    split <;> rfl
  | halt => rfl

/-- Agreement of a memory on the cells the step of `s` reads. -/
def AgreesOnReads (m : Memory) (s : State) : Prop :=
  ∀ a : Nat, .read (a : Int) ∈ stepAccesses s → m.read a = s.mem.read a

section
variable (h : AgreesOnReads m s)
include h

theorem wordAtIp_congr (hip : 0 ≤ s.ip) : wordAtIp { s with mem := m } = wordAtIp s := by
  refine h _ ?_
  rw [Int.toNat_of_nonneg hip, stepAccesses, if_neg hip.not_gt]
  exact List.mem_cons_self

theorem fetches_congr {i : Instr} (hi : fetches s i) : fetches { s with mem := m } i :=
  ⟨hi.1, by rw [wordAtIp_congr h hi.1, hi.2]⟩

theorem params_congr_of_fetches {i : Instr} (hi : fetches s i) (hwf : i.wellFormed = true) :
    allInRange { s with mem := m } 0 i.params = allInRange s 0 i.params ∧
      (allInRange s 0 i.params = true → ∀ j p, i.params[j]? = some p → SameParam s m j p) := by
  have := params_congr (starved := starvedInput i s) hi.1 (Instr.wellFormed_iff.1 hwf) 0 [] fun a ha => h a (by
    rw [stepAccesses_of_fetches hi, instrAccesses, if_pos hwf]
    exact List.mem_cons_of_mem _ ha)
  simpa only [Nat.zero_add] using this

theorem faultOf_congr {i : Instr} (hi : fetches s i) : faultOf i { s with mem := m } = faultOf i s := by
  unfold faultOf
  cases hwf : i.wellFormed with
  | false => rfl
  | true => rw [(params_congr_of_fetches h hi hwf).1]

theorem firstFault_congr : firstFault { s with mem := m } = firstFault s := by
  rcases lt_or_ge s.ip 0 with hip | hip
  · rw [firstFault, firstFault, if_pos hip, if_pos hip]
  · cases hd : decode (wordAtIp s) with
    | ok i =>
      have hi : fetches s i := ⟨hip, hd⟩
      rw [firstFault_of_fetches (fetches_congr h hi), firstFault_of_fetches hi, faultOf_congr h hi]
    | error f => simp only [firstFault, wordAtIp_congr h hip, hd]

/-- The step of the other state: the same fault, or the same commit to its own memory. -/
theorem commitOf_congr_of_fetches {i : Instr} (hi : fetches s i) (hc : completes i s) :
    commitOf i { s with mem := m } = { commitOf i s with mem := m.store (storeOf i s) } := by
  obtain ⟨hwf, hrange, -⟩ := hc
  exact commitOf_congr ((params_congr_of_fetches h hi hwf).2 hrange)

end

end

end Sys2Proof.Machine

namespace Sys2Proof.Proofs

open Sys2Proof.Machine Sys2Proof.Safety

/-- Settles O53: the read cells determine the fetch, the parameters and so the first fault, or else the commit, which is
one store into whichever memory the state has. -/
theorem readCellsDetermineTheStep : Obligations.ReadCellsDetermineTheStep := by
  intro s t t' m hr hm ht ht'
  have hagree : AgreesOnReads m s := hm
  have hr' : ({ s with mem := m } : State).runState = .running := hr
  cases hfirst : firstFault s with
  | some c =>
    rw [step_of_firstFault hr hfirst] at ht
    rw [step_of_firstFault hr' ((firstFault_congr hagree).trans hfirst)] at ht'
    cases ht
    cases ht'
    refine ⟨rfl, rfl, rfl, rfl, rfl, rfl, rfl, fun a => ?_⟩
    rw [if_neg (write_not_mem_stepAccesses_of_fault hfirst a)]
    rfl
  | none =>
    obtain ⟨i, hi, hc, hstep⟩ := step_of_no_fault hr hfirst
    have hi' := fetches_congr hagree hi
    have hc' : completes i { s with mem := m } :=
      faultOf_eq_none.1 ((faultOf_congr hagree hi).trans (faultOf_eq_none.2 hc))
    rw [hstep] at ht
    rw [step_of_fetches hr' hi', exec_of_completes hi'.1 hc', commitOf_congr_of_fetches hagree hi hc] at ht'
    cases ht
    cases ht'
    refine ⟨rfl, rfl, rfl, rfl, rfl, rfl, rfl, fun a => ?_⟩
    rw [commitOf_mem]
    split
    case isTrue hw =>
      obtain ⟨v, hv⟩ := (write_mem_stepAccesses_of_completes hi hc a).1 hw
      rw [Memory.read_store_of_eq hv, Memory.read_store_of_eq hv]
    case isFalse hw =>
      exact Memory.read_store_of_ne fun hv => hw ((write_mem_stepAccesses_of_completes hi hc a).2 hv)

/-- Settles O51: a commit is one store, at the address of the step's write access. -/
theorem memoryChangesOnlyWhereWritten : Obligations.MemoryChangesOnlyWhereWritten := by
  intro s t h a ha
  rcases step_cases h with ⟨hr, rfl⟩ | ⟨hr, rfl⟩ | ⟨hr, i, hi, hc, rfl⟩ | ⟨hr, c, -, rfl⟩
  case inr.inr.inl =>
    rw [commitOf_mem]
    refine Memory.read_store_of_ne fun hw => ha ⟨hr, ?_⟩
    exact (write_mem_stepAccesses_of_completes hi hc a).2 hw
  all_goals rfl

end Sys2Proof.Proofs
end

section
/-! PROOFS. The phases of the control state machine (spec/41_engine_cycle.md R100) against the atomic step (D22,
log 23). -/

namespace Sys2Proof.Machine

open Sys2Proof.Safety

theorem ticks_add (j k : Nat) (q : Sequencer) : ticks (j + k) q = ticks k (ticks j q) := by
  induction j generalizing q with
  | zero => simp [ticks]
  | succ j ih => rw [Nat.succ_add, ticks, ih, ticks]

/-- `k` phases lead from `q` to `q'`, and no phase on the way changes the architectural state (R37). -/
def Quietly (k : Nat) (q q' : Sequencer) : Prop :=
  ticks k q = q' ∧ ∀ j ≤ k, (ticks j q).arch = q.arch

theorem quietly_zero (q : Sequencer) : Quietly 0 q q :=
  ⟨rfl, fun j hj => by rw [Nat.le_zero.1 hj]; rfl⟩

theorem Quietly.arch_eq {k : Nat} {q q' : Sequencer} (h : Quietly k q q') : q'.arch = q.arch := by
  rw [← h.1]
  exact h.2 k le_rfl

theorem quietly_tick {q q' : Sequencer} (h : tick q = q') (harch : q'.arch = q.arch) : Quietly 1 q q' := by
  refine ⟨h, fun j hj => ?_⟩
  interval_cases j
  · rfl
  · exact (congrArg Sequencer.arch h).trans harch

theorem Quietly.trans {j k : Nat} {q q' q'' : Sequencer} (h : Quietly j q q') (h' : Quietly k q' q'') :
    Quietly (j + k) q q'' := by
  refine ⟨by rw [ticks_add, h.1, h'.1], fun n hn => ?_⟩
  rcases le_total n j with hnj | hjn
  · exact h.2 n hnj
  · obtain ⟨d, rfl⟩ := Nat.exists_eq_add_of_le hjn
    rw [ticks_add, h.1, h'.2 d (by omega), h.arch_eq]

theorem Quietly.ticks_succ {k : Nat} {q q' : Sequencer} (h : Quietly k q q') : ticks (k + 1) q = tick q' := by
  rw [ticks_add, h.1]
  rfl

/-- What a parameter is resolved to: a value's Word, an address parameter's address (R91, R92). -/
def resolvedOf (s : State) (k : Nat) : Role × Mode → Int
  | (.value, m) => valueOf s k m
  | (.address, m) => targetOf s k m

/-- The resolved parameters from index `k` on, as the working values hold them (10 R25). -/
def resolvedFrom (s : State) : Nat → List (Role × Mode) → List Int
  | _, [] => []
  | k, p :: rest => resolvedOf s k p :: resolvedFrom s (k + 1) rest

/-- The phases a parameter takes at most: its word, and a value's read (R100). -/
def roleTicks : Role → Nat
  | .value => 2
  | .address => 1

/-! One phase each (R100). -/

section
variable {q : Sequencer} {k : Nat} {w : Int} {m : Mode}

theorem tick_param_immediate {role : Role} (hphase : q.phase = .param k) (hread : memRead q.arch q.wp = .ok w)
    (hp : q.latched.params[k]? = some (role, .immediate)) :
    tick q = { q with wp := q.wp + 1, resolved := q.resolved ++ [w], phase := afterParam q k } := by
  simp only [tick, hphase, hread, hp]

theorem tick_param_negative {role : Role} (hphase : q.phase = .param k) (hread : memRead q.arch q.wp = .ok w)
    (hp : q.latched.params[k]? = some (role, m)) (hm : m ≠ .immediate) (ha : formAddress q.arch m w < 0) :
    tick q = { q with wp := q.wp + 1, phase := .fault .invalidAddress } := by
  cases m with
  | immediate => exact absurd rfl hm
  | position | relative => simp only [tick, hphase, hread, hp, if_pos ha]

theorem tick_param_value (hphase : q.phase = .param k) (hread : memRead q.arch q.wp = .ok w)
    (hp : q.latched.params[k]? = some (.value, m)) (hm : m ≠ .immediate) (ha : ¬ formAddress q.arch m w < 0) :
    tick q = { q with wp := q.wp + 1, addr := formAddress q.arch m w, phase := .deref k } := by
  cases m with
  | immediate => exact absurd rfl hm
  | position | relative => simp only [tick, hphase, hread, hp, if_neg ha]

theorem tick_param_address (hphase : q.phase = .param k) (hread : memRead q.arch q.wp = .ok w)
    (hp : q.latched.params[k]? = some (.address, m)) (hm : m ≠ .immediate) (ha : ¬ formAddress q.arch m w < 0) :
    tick q = { q with
      wp := q.wp + 1, resolved := q.resolved ++ [formAddress q.arch m w], phase := afterParam q k } := by
  cases m with
  | immediate => exact absurd rfl hm
  | position | relative => simp only [tick, hphase, hread, hp, if_neg ha]

theorem tick_deref (hphase : q.phase = .deref k) (hread : memRead q.arch q.addr = .ok w) :
    tick q = { q with resolved := q.resolved ++ [w], phase := afterParam q k } := by
  simp only [tick, hphase, hread]

theorem tick_fetch_ok (hphase : q.phase = .fetch) (hread : memRead q.arch q.arch.ip = .ok w) :
    tick q = { q with raw := w, wp := q.arch.ip, phase := .decode } := by
  simp only [tick, hphase, hread]

theorem tick_fetch_error {c : FaultCause} (hphase : q.phase = .fetch) (hread : memRead q.arch q.arch.ip = .error c) :
    tick q = { q with phase := .fault c } := by
  simp only [tick, hphase, hread]

theorem tick_decode_error {f : DecodeFailure} (hphase : q.phase = .decode) (hd : decode q.raw = .error f) :
    tick q = { q with phase := .fault .invalidInstruction } := by
  simp only [tick, hphase, hd]

theorem tick_decode_halt (hphase : q.phase = .decode) (hd : decode q.raw = .ok .halt) :
    tick q = { q with latched := .halt, phase := .halt } := by
  simp only [tick, hphase, hd]

theorem tick_decode_ok {i : Instr} (hphase : q.phase = .decode) (hd : decode q.raw = .ok i) (hi : i ≠ .halt) :
    tick q = if i.wellFormed then { q with latched := i, wp := q.arch.ip + 1, resolved := [], phase := .param 0 }
      else { q with phase := .fault .invalidInstruction } := by
  cases i with
  | halt => exact absurd rfl hi
  | _ => simp only [tick, hphase, hd]

theorem tick_exec_starved (hphase : q.phase = .exec) (h : starved q.latched q.arch) :
    tick q = { q with phase := .fault .inputExhausted } := by
  obtain ⟨hop, hq⟩ := h
  cases hl : q.latched <;> rw [hl] at hop
  case input => simp only [tick, hphase, hl, hq]
  all_goals exact absurd hop (by simp [Instr.opcode])

theorem tick_exec (hphase : q.phase = .exec) (h : ¬ starved q.latched q.arch) :
    tick q = { q with phase := .commit } := by
  simp only [tick, hphase]
  split
  case h_1 hl hq => exact absurd ⟨by rw [hl]; rfl, hq⟩ h
  case h_2 => rfl

theorem tick_commit (hphase : q.phase = .commit) :
    tick q = { q with arch := dispatch q.latched q.resolved q.wp q.arch, phase := .fetch } := by
  simp only [tick, hphase]

theorem tick_halt (hphase : q.phase = .halt) : tick q = { q with arch := haltRun q.arch } := by
  simp only [tick, hphase]

theorem tick_fault {c : FaultCause} (hphase : q.phase = .fault c) :
    tick q = { q with arch := faultedState c q.arch } := by
  simp only [tick, hphase]

end

/-- The engine about to resolve parameter `k` of the latched instruction, or past the last, those before it resolved
to `r`. -/
structure AtParam (q : Sequencer) (s : State) (i : Instr) (k : Nat) (r : List Int) : Prop where
  arch : q.arch = s
  latched : q.latched = i
  phase : q.phase = if k < i.paramCount then .param k else .exec
  wp : q.wp = s.ip + 1 + k
  resolved : q.resolved = r

section
variable {q : Sequencer} {s : State} {i : Instr} {k : Nat} {r : List Int} {p : Role × Mode}
  (h : AtParam q s i k r) (hip : 0 ≤ s.ip) (hp : i.params[k]? = some p)
include h hip hp

theorem AtParam.ready :
    q.phase = .param k ∧ memRead q.arch q.wp = .ok (paramWord s k) ∧ q.latched.params[k]? = some p := by
  refine ⟨?_, ?_, h.latched ▸ hp⟩
  · obtain ⟨hlt, -⟩ := List.getElem?_eq_some_iff.1 hp
    rw [h.phase, if_pos (i.paramShape.1 ▸ hlt)]
  · rw [h.arch, h.wp, memRead_of_nonneg s (by omega)]
    rfl

theorem AtParam.step_of_inRange (hlegal : p ≠ (.address, .immediate)) (hr : inRange s k p.2) :
    ∃ n ≤ roleTicks p.1, ∃ q', Quietly n q q' ∧ AtParam q' s i (k + 1) (r ++ [resolvedOf s k p]) := by
  obtain ⟨hphase, hread, hlatched⟩ := h.ready hip hp
  have hform : formAddress q.arch p.2 (paramWord s k) = targetOf s k p.2 := h.arch ▸ formAddress_paramWord s k p.2
  have hnext : afterParam q k = if k + 1 < i.paramCount then .param (k + 1) else .exec := by
    rw [afterParam, h.latched]
  have hwp : q.wp + 1 = s.ip + 1 + (k + 1 : Nat) := by rw [h.wp]; push_cast; ring
  obtain ⟨role, m⟩ := p
  by_cases hm : m = .immediate
  case pos =>
    subst hm
    cases role with
    | address => exact absurd rfl hlegal
    | value =>
      refine ⟨1, by decide, _, quietly_tick (tick_param_immediate hphase hread hlatched) rfl, ?_⟩
      exact ⟨h.arch, h.latched, hnext, hwp, by simp [h.resolved, resolvedOf, valueOf]⟩
  case neg =>
    have hpos := hr.resolve_left hm
    have ha : ¬ formAddress q.arch m (paramWord s k) < 0 := by rw [hform]; exact hpos.not_gt
    cases role with
    | address =>
      refine ⟨1, le_rfl, _, quietly_tick (tick_param_address hphase hread hlatched hm ha) rfl, ?_⟩
      exact ⟨h.arch, h.latched, hnext, hwp, by rw [h.resolved, hform]; rfl⟩
    | value =>
      have hcell : memRead q.arch (formAddress q.arch m (paramWord s k)) = .ok (valueOf s k m) := by
        rw [hform, h.arch, memRead_of_nonneg s hpos, valueOf, if_neg hm]
      refine ⟨1 + 1, le_rfl, _, (quietly_tick (tick_param_value hphase hread hlatched hm ha) rfl).trans
        (quietly_tick (tick_deref rfl hcell) rfl), ?_⟩
      exact ⟨h.arch, h.latched, hnext, hwp, by rw [h.resolved]; rfl⟩

theorem AtParam.fault_of_not_inRange (hr : ¬ inRange s k p.2) :
    ∃ q', Quietly 1 q q' ∧ q'.phase = .fault .invalidAddress := by
  obtain ⟨hphase, hread, hlatched⟩ := h.ready hip hp
  obtain ⟨hm, hneg⟩ := not_or.1 hr
  have ha : formAddress q.arch p.2 (paramWord s k) < 0 := by
    rw [h.arch, formAddress_paramWord]
    exact not_le.1 hneg
  exact ⟨_, quietly_tick (tick_param_negative hphase hread hlatched hm ha) rfl, rfl⟩

end

theorem AtParam.phase_exec {q : Sequencer} {s : State} {i : Instr} {r : List Int} (h : AtParam q s i i.paramCount r) :
    q.phase = .exec := by
  rw [h.phase, if_neg (lt_irrefl _)]

/-- The phases the parameters take at most. -/
def paramTicks (ps : List (Role × Mode)) : Nat := (ps.map fun p => roleTicks p.1).sum

theorem paramTicks_cons (p : Role × Mode) (ps : List (Role × Mode)) :
    paramTicks (p :: ps) = roleTicks p.1 + paramTicks ps := by
  simp [paramTicks]

theorem one_le_roleTicks (role : Role) : 1 ≤ roleTicks role := by
  cases role <;> decide

/-- The phases of the parameters from index `k` on: each resolved, or the fault of the first that names a negative
address (R93). -/
theorem AtParam.params {s : State} {i : Instr} {ps : List (Role × Mode)} (hip : 0 ≤ s.ip)
    (hlegal : (.address, .immediate) ∉ ps) {q : Sequencer} {k : Nat} {r : List Int} (h : AtParam q s i k r)
    (hps : i.params.drop k = ps) :
    (allInRange s k ps = true → ∃ n ≤ paramTicks ps, ∃ q', Quietly n q q' ∧
      AtParam q' s i (k + ps.length) (r ++ resolvedFrom s k ps)) ∧
    (allInRange s k ps = false → ∃ n ≤ paramTicks ps, ∃ q', Quietly n q q' ∧
      q'.phase = .fault .invalidAddress) := by
  induction ps generalizing q k r with
  | nil =>
    refine ⟨fun _ => ⟨0, le_rfl, q, quietly_zero q, ?_⟩, fun hno => ?_⟩
    · simpa [resolvedFrom] using h
    · cases hno
  | cons p ps ih =>
    obtain ⟨hpl, hpsl⟩ := not_or.1 (List.mem_cons.not.1 hlegal)
    have hp : i.params[k]? = some p := by
      rw [← List.head?_drop, hps]; rfl
    have hrest : i.params.drop (k + 1) = ps := by
      rw [← List.tail_drop, hps]; rfl
    by_cases hr : inRange s k p.2
    case neg =>
      obtain ⟨q', hq, hfault⟩ := h.fault_of_not_inRange hip hp hr
      have hone : 1 ≤ paramTicks (p :: ps) := by
        rw [paramTicks_cons]
        exact (one_le_roleTicks p.1).trans (Nat.le_add_right _ _)
      exact ⟨fun hall => absurd hall (by simp [allInRange, hr]), fun _ => ⟨1, hone, q', hq, hfault⟩⟩
    case pos =>
      obtain ⟨n, hn, q', hq, h'⟩ := h.step_of_inRange hip hp (Ne.symm hpl) hr
      have hall : allInRange s k (p :: ps) = allInRange s (k + 1) ps := by simp [allInRange, hr]
      obtain ⟨hok, hno⟩ := ih hpsl h' hrest
      rw [hall]
      refine ⟨fun ha => ?_, fun ha => ?_⟩
      · obtain ⟨n', hn', q'', hq', h''⟩ := hok ha
        refine ⟨n + n', by rw [paramTicks_cons]; exact Nat.add_le_add hn hn', q'', hq.trans hq', ?_⟩
        rw [List.append_assoc] at h''
        rw [List.length_cons, Nat.add_comm ps.length, ← Nat.add_assoc]
        exact h''
      · obtain ⟨n', hn', q'', hq', h''⟩ := hno ha
        exact ⟨n + n', by rw [paramTicks_cons]; exact Nat.add_le_add hn hn', q'', hq.trans hq', h''⟩

theorem paramTicks_le_five (i : Instr) : paramTicks i.params ≤ 5 := by
  cases i <;> simp [Instr.params, paramTicks, roleTicks]

/-- The dispatch of the resolved parameters is the commit (R95). -/
theorem dispatch_eq_commitOf {i : Instr} {s : State} (hc : completes i s) (hi : i ≠ .halt) :
    dispatch i (resolvedFrom s 0 i.params) (s.ip + 1 + i.paramCount) s = commitOf i s := by
  cases i with
  | halt => exact absurd rfl hi
  | add | multiply | lessThan | equals | output | adjustRelativeBase => rfl
  | jumpIfTrue m0 m1 | jumpIfFalse m0 m1 =>
    simp [dispatch, commitOf, resolvedFrom, resolvedOf, Instr.params, Instr.paramCount, isNonZero, advance, nextIp,
      apply_ite (setIp s)]
  | input m0 =>
    obtain ⟨-, -, hstarved⟩ := hc
    cases hq : s.inq with
    | nil => exact absurd ⟨rfl, hq⟩ hstarved
    | cons v rest =>
      simp [dispatch, commitOf, resolvedFrom, resolvedOf, Instr.params, hq]
      rfl

/-- The engine after a fetch that had an address. -/
def fetched (q : Sequencer) : Sequencer := { q with raw := wordAtIp q.arch, wp := q.arch.ip, phase := .decode }

section
variable {q : Sequencer} (hphase : q.phase = .fetch)
include hphase

theorem quietly_fetched (hip : 0 ≤ q.arch.ip) : Quietly 1 q (fetched q) :=
  quietly_tick (tick_fetch_ok hphase (memRead_of_nonneg q.arch hip)) rfl

/-- A legal instruction is latched and its parameters begin. -/
theorem quietly_atParam {i : Instr} (hi : fetches q.arch i) (hh : i ≠ .halt) (hwf : i.wellFormed = true) :
    ∃ q', Quietly 2 q q' ∧ AtParam q' q.arch i 0 [] := by
  have hdecode := tick_decode_ok (q := fetched q) rfl hi.2 hh
  rw [if_pos hwf] at hdecode
  refine ⟨_, (quietly_fetched hphase hi.1).trans (quietly_tick hdecode rfl), rfl, rfl, ?_, (add_zero _).symm, rfl⟩
  cases i with
  | halt => exact absurd rfl hh
  | _ => rfl

/-- The parameters of a fetched instruction all resolve, and S_EXEC follows. -/
theorem quietly_exec {i : Instr} (hi : fetches q.arch i) (hh : i ≠ .halt) (hwf : i.wellFormed = true)
    (hrange : allInRange q.arch 0 i.params = true) :
    ∃ n ≤ 7, ∃ q', Quietly n q q' ∧ AtParam q' q.arch i i.paramCount (resolvedFrom q.arch 0 i.params) := by
  obtain ⟨q₁, h₁, hat⟩ := quietly_atParam hphase hi hh hwf
  obtain ⟨n, hn, q₂, h₂, hdone⟩ := (hat.params hi.1 (Instr.wellFormed_iff.1 hwf) rfl).1 hrange
  have hfive := paramTicks_le_five i
  refine ⟨2 + n, by omega, q₂, h₁.trans h₂, ?_⟩
  rwa [Nat.zero_add, i.paramShape.1, List.nil_append] at hdone

/-- The phases of an instruction that does not fault and is no Halt end in S_COMMIT. -/
theorem quietly_commit {i : Instr} (hi : fetches q.arch i) (hc : completes i q.arch) (hh : i ≠ .halt) :
    ∃ n ≤ 8, ∃ q', Quietly n q q' ∧ q'.phase = .commit ∧
      dispatch q'.latched q'.resolved q'.wp q'.arch = commitOf i q.arch := by
  obtain ⟨hwf, hrange, hstarved⟩ := hc
  obtain ⟨n, hn, q₁, h₁, hat⟩ := quietly_exec hphase hi hh hwf hrange
  have htick := tick_exec hat.phase_exec (by rwa [hat.latched, hat.arch])
  refine ⟨n + 1, by omega, _, h₁.trans (quietly_tick htick rfl), rfl, ?_⟩
  rw [hat.latched, hat.resolved, hat.wp, hat.arch]
  exact dispatch_eq_commitOf ⟨hwf, hrange, hstarved⟩ hh

/-- The phases of an instruction's fault end in its S_FAULT. -/
theorem quietly_fault_of_fetches {i : Instr} {c : FaultCause} (hi : fetches q.arch i) (h : faultOf i q.arch = some c) :
    ∃ n ≤ 8, ∃ q', Quietly n q q' ∧ q'.phase = .fault c := by
  have hh : i ≠ .halt := by
    rintro rfl
    simp [faultOf, Instr.wellFormed, Instr.params, allInRange, starved, Instr.opcode] at h
  cases c with
  | invalidInstruction =>
    have hwf := faultOf_eq_invalidInstruction.1 h
    have hdecode := tick_decode_ok (q := fetched q) rfl hi.2 hh
    rw [if_neg (by simp [hwf])] at hdecode
    exact ⟨2, by omega, _, (quietly_fetched hphase hi.1).trans (quietly_tick hdecode rfl), rfl⟩
  | invalidAddress =>
    obtain ⟨hwf, hrange⟩ := faultOf_eq_invalidAddress.1 h
    obtain ⟨q₁, h₁, hat⟩ := quietly_atParam hphase hi hh hwf
    obtain ⟨n, hn, q₂, h₂, hfault⟩ := (hat.params hi.1 (Instr.wellFormed_iff.1 hwf) rfl).2 hrange
    have hfive := paramTicks_le_five i
    exact ⟨2 + n, by omega, q₂, h₁.trans h₂, hfault⟩
  | inputExhausted =>
    obtain ⟨hwf, hrange, hstarved⟩ := faultOf_eq_inputExhausted.1 h
    obtain ⟨n, hn, q₁, h₁, hat⟩ := quietly_exec hphase hi hh hwf hrange
    have htick := tick_exec_starved hat.phase_exec (by rwa [hat.latched, hat.arch])
    exact ⟨n + 1, by omega, _, h₁.trans (quietly_tick htick rfl), rfl⟩

/-- The phases of a faulting step end in S_FAULT of its first fault. -/
theorem quietly_fault {c : FaultCause} (h : firstFault q.arch = some c) :
    ∃ n ≤ 8, ∃ q', Quietly n q q' ∧ q'.phase = .fault c := by
  rcases firstFault_eq_some_iff.1 h with hf | ⟨i, hi, hf⟩
  · rcases fetch_eq_error_iff.1 hf with ⟨hip, rfl⟩ | ⟨hip, hw, rfl⟩
    · exact ⟨1, by omega, _, quietly_tick (tick_fetch_error hphase (memRead_of_neg q.arch hip)) rfl, rfl⟩
    · obtain ⟨f, hd⟩ := decode_eq_error_iff.2 hw
      have htick := tick_decode_error (q := fetched q) rfl hd
      exact ⟨2, by omega, _, (quietly_fetched hphase hip).trans (quietly_tick htick rfl), rfl⟩
  · exact quietly_fault_of_fetches hphase hi hf

theorem quietly_halt (hi : fetches q.arch .halt) : ∃ q', Quietly 2 q q' ∧ q'.phase = .halt :=
  ⟨_, (quietly_fetched hphase hi.1).trans (quietly_tick (tick_decode_halt (q := fetched q) rfl hi.2) rfl), rfl⟩

end

end Sys2Proof.Machine

namespace Sys2Proof.Proofs

open Sys2Proof.Machine Sys2Proof.Safety

/-- Settles O58: the phases resolve the parameters one by one without touching the architectural state, and the one
phase that writes it writes what the step does: the commit, Halt's status, or the first fault. -/
theorem phasesRefineTheStep : Obligations.PhasesRefineTheStep := by
  intro q hphase hr
  cases hfirst : firstFault q.arch with
  | some c =>
    obtain ⟨n, hn, q', hq, hfault⟩ := quietly_fault hphase hfirst
    have hlast : ticks (n + 1) q = { q' with arch := faultedState c q.arch } := by
      rw [hq.ticks_succ, tick_fault hfault, hq.arch_eq]
    refine ⟨n + 1, faultedState c q.arch, by omega, step_of_firstFault hr hfirst, by rw [hlast],
      fun j hj => hq.2 j (by omega), .inr (.inr ⟨rfl, c, rfl, ?_⟩)⟩
    rw [hlast]
    exact hfault
  | none =>
    obtain ⟨i, hi, hc, hstep⟩ := step_of_no_fault hr hfirst
    by_cases hh : i = .halt
    case pos =>
      subst hh
      obtain ⟨q', hq, hhalt⟩ := quietly_halt hphase hi
      have hlast : ticks 3 q = { q' with arch := haltRun q.arch } := by
        rw [hq.ticks_succ, tick_halt hhalt, hq.arch_eq]
      refine ⟨3, haltRun q.arch, by omega, hstep, by rw [hlast], fun j hj => hq.2 j (by omega),
        .inr (.inl ⟨rfl, ?_⟩)⟩
      rw [hlast]
      exact hhalt
    case neg =>
      obtain ⟨n, hn, q', hq, hcommit, hdispatch⟩ := quietly_commit hphase hi hc hh
      have hlast : ticks (n + 1) q = { q' with arch := commitOf i q.arch, phase := .fetch } := by
        rw [hq.ticks_succ, tick_commit hcommit, hdispatch]
      refine ⟨n + 1, commitOf i q.arch, by omega, hstep, by rw [hlast], fun j hj => hq.2 j (by omega),
        .inl ⟨?_, by rw [hlast]⟩⟩
      rw [commitOf_runState, if_neg hh, hr]

end Sys2Proof.Proofs
end

section
/-! PROOFS. The machine under the OPEN parameters (spec/00_scope.md R6, spec/70_reset_and_hazards.md R185). -/

namespace Sys2Proof.Machine

open Sys2Proof.Safety

@[simp] theorem wordFits_unbounded (v : Int) : wordFits .unbounded v = true := rfl

@[simp] theorem addrFits_unbounded (a : Int) : addrFits .unbounded a = true := rfl

@[simp] theorem stateFits_unbounded (s : State) : stateFits .unbounded s = true := by
  simp [stateFits]

@[simp] theorem lengthFits_unbounded (n : Nat) : lengthFits Config.Limits.unbounded.outDepth n = true := rfl

theorem imageAddressesFit_of_forall {fits : Int → Bool} (h : ∀ a, fits a = true) (image : List Int) :
    imageAddressesFit fits image = true :=
  (imageAddressesFit_iff fits image).2 fun _ _ => h _

theorem stepWithin_of_not_running {l : Config.Limits} {s : State} (h : s.runState ≠ .running) :
    stepWithin l s = step s := by
  cases hr : s.runState with
  | running => exact absurd hr h
  | ready | halted | faulted => simp only [stepWithin, hr]

/-- Under any limits a step is the machine's own, or it is refused. -/
theorem stepWithin_eq_or_refused (l : Config.Limits) (s : State) :
    stepWithin l s = step s ∨ ∃ r, stepWithin l s = .refused r := by
  by_cases hr : s.runState = .running
  case neg => exact .inl (stepWithin_of_not_running hr)
  case pos =>
    obtain ⟨t, ht⟩ := step_answers (s := s) (by simp [hr])
    simp only [stepWithin, hr, ht]
    split_ifs
    case neg => exact .inl rfl
    all_goals exact .inr ⟨_, rfl⟩

theorem stepWithin_unbounded (s : State) : stepWithin .unbounded s = step s := by
  by_cases hr : s.runState = .running
  case neg => exact stepWithin_of_not_running hr
  case pos =>
    obtain ⟨t, ht⟩ := step_answers (s := s) (by simp [hr])
    simp [stepWithin, hr, ht]

/-- A Word that a memory answers, if it is not 0, is one that it lists. -/
theorem Memory.mem_of_read_ne_zero {m : Memory} {a : Nat} (h : m.read a ≠ 0) : (a, m.read a) ∈ m := by
  induction m with
  | nil => exact absurd rfl h
  | cons c m ih =>
    rw [Memory.read_cons] at h ⊢
    split at h
    case isTrue hc =>
      rw [if_pos hc, ← hc]
      exact List.mem_cons_self
    case isFalse hc => exact List.mem_cons_of_mem _ (by simpa [hc] using ih h)

/-- Every Word a fitting state holds is in range (93 U1). -/
theorem wordFits_of_stateFits {l : Config.Limits} {s : State} (h : stateFits l s = true) {v : Int}
    (hv : v = s.ip ∨ v = s.rb ∨ v ∈ s.inq ∨ v ∈ s.out ∨ (v ≠ 0 ∧ ∃ a, s.mem.read a = v)) : wordFits l v = true := by
  simp only [stateFits, Bool.and_eq_true, List.all_eq_true] at h
  obtain ⟨⟨⟨⟨hip, hrb⟩, hmem⟩, hinq⟩, hout⟩ := h
  rcases hv with rfl | rfl | hv | hv | ⟨hne, a, rfl⟩
  · exact hip
  · exact hrb
  · exact hinq v hv
  · exact hout v hv
  · exact hmem _ (Memory.mem_of_read_ne_zero hne)

theorem inRange_of_allInRange {s : State} {ps : List (Role × Mode)} {k : Nat} (h : allInRange s k ps = true) :
    ∀ j p, ps[j]? = some p → inRange s (k + j) p.2 := by
  induction ps generalizing k with
  | nil => simp
  | cons p ps ih =>
    simp only [allInRange, Bool.and_eq_true, decide_eq_true_eq] at h
    obtain ⟨hp, hps⟩ := h
    rw [forall_getElem?_cons]
    refine ⟨hp, fun j q hq => ?_⟩
    rw [← Nat.succ_add_eq_add_succ]
    exact ih hps j q hq

/-- Every legal instruction but Halt whose parameters resolve forms its `next_ip` (41 R86). -/
theorem nextIp_mem_stepFormed {s : State} {i : Instr} (hi : fetches s i) (hh : i ≠ .halt) (hwf : i.wellFormed = true)
    (hrange : allInRange s 0 i.params = true) : s.ip + 1 + i.paramCount ∈ stepFormed s := by
  have hmem := nextIp_mem_paramFormed s i.params 0 fun j p hp =>
    (inRange_of_allInRange hrange j p hp).imp_right fun hpos => by
      rwa [← formAddress_paramWord] at hpos
  have hsome : i.params ≠ [] := by
    cases i with
    | halt => exact absurd rfl hh
    | _ => simp [Instr.params]
  rw [Nat.zero_add, i.paramShape.1] at hmem
  simpa [stepFormed, fetch_of_fetches hi, instrFormed, hwf, hsome, nextIp] using hmem

theorem constructWithin_eq_or_refused (l : Config.Limits) (image inputs : List Int) :
    constructWithin l image inputs = .next (construct image inputs) ∨
      ∃ r, constructWithin l image inputs = .refused r := by
  unfold constructWithin
  split_ifs
  case neg => exact .inl rfl
  all_goals exact .inr ⟨_, rfl⟩

/-- Construction under limits is construction exactly when the four checks pass. -/
theorem constructWithin_eq_next_iff {l : Config.Limits} {image inputs : List Int} :
    constructWithin l image inputs = .next (construct image inputs) ↔
      imageAddressesFit (addrFits l) image = true ∧ imageAddressesFit (wordFits l) image = true ∧
        lengthFits l.inqDepth inputs.length = true ∧ (image ++ inputs).all (wordFits l) = true := by
  unfold constructWithin
  split_ifs <;> simp_all

/-- The check of WORD_BITS on an address: the upper bound alone, an address being no negative Word. -/
theorem wordFits_iff_of_nonneg {l : Config.Limits} {v : Int} (hv : 0 ≤ v) :
    wordFits l v = true ↔ ∀ n, l.wordBits = some n → v ≤ 2 ^ (n - 1) - 1 := by
  rw [wordFits_iff]
  refine forall₂_congr fun n _ => and_iff_right ?_
  have : (0 : Int) < 2 ^ (n - 1) := by positivity
  omega

theorem rangeFits_iff {l : Config.Limits} {lo hi : Int} :
    rangeFits l lo hi = true ↔ hi < lo ∨ (addrFits l hi = true ∧ wordFits l hi = true) := by
  simp [rangeFits]

theorem inspectMemWithin_of_fits {l : Config.Limits} {s : State} {lo hi : Int}
    (h : hi < lo ∨ (addrFits l hi = true ∧ wordFits l hi = true)) : inspectMemWithin l s lo hi = inspectMem s lo hi :=
  if_pos (rangeFits_iff.2 h)

/-- A range that is refused without limits is refused under limits. -/
theorem inspectMemWithin_of_none {l : Config.Limits} {s : State} {lo hi : Int} (h : inspectMem s lo hi = none) :
    inspectMemWithin l s lo hi = none := by
  rw [inspectMemWithin, h, ite_self]

end Sys2Proof.Machine

namespace Sys2Proof.Proofs

open Sys2Proof.Machine Sys2Proof.Safety

/-- Settles O56: with no limit set every check passes. -/
theorem noLimitsIsTheMachine : Obligations.NoLimitsIsTheMachine := by
  refine ⟨stepWithin_unbounded, fun image inputs => ?construct, fun s lo hi => ?inspect⟩
  case construct =>
    exact constructWithin_eq_next_iff.2 ⟨imageAddressesFit_of_forall addrFits_unbounded image,
      imageAddressesFit_of_forall wordFits_unbounded image, rfl, by simp⟩
  case inspect => simp [inspectMemWithin, rangeFits]

/-- Settles O57: a limited step that answers passed every check, and the checks are those of the Words it holds and of
the addresses and the `next_ip` it formed. -/
theorem limitsOnlyRefuse : Obligations.LimitsOnlyRefuse := by
  refine fun l s => ⟨stepWithin_eq_or_refused l s, fun t hr h => ?_⟩
  obtain ⟨-, haccesses, hformed, hstate, hout⟩ := stepWithin_running_next hr h
  refine ⟨fun n hn v hv => ?_, fun n hn a ha => ?_, fun n hn i hi hh hwf hrange => ?_, fun top htop x hx => ?_,
    (lengthFits_iff _ _).1 hout⟩
  · exact (wordFits_iff l v).1 (wordFits_of_stateFits hstate hv) n hn
  · exact (wordFits_iff l a).1 (hformed a ha) n hn
  · exact (wordFits_iff l _).1 (hformed _ (nextIp_mem_stepFormed hi hh hwf hrange)) n hn
  · exact (addrFits_iff l _).1 (haccesses x hx).1 top htop

/-- Settles O59: construction passes the checks of what it loads, and a range is refused for its last address or, as
without limits, for its sign. -/
theorem hostOperationsWithinLimits : Obligations.HostOperationsWithinLimits := by
  intro l
  refine ⟨fun image inputs => ⟨constructWithin_eq_or_refused l image inputs, ?construct⟩,
    fun s lo hi => ⟨fun h => ?within, fun a hlo hhi h => ?beyond⟩⟩
  case construct =>
    have haddr (k : Nat) : wordFits l k = true ↔ ∀ n, l.wordBits = some n → (k : Int) ≤ 2 ^ (n - 1) - 1 :=
      wordFits_iff_of_nonneg k.cast_nonneg
    simp only [constructWithin_eq_next_iff, imageAddressesFit_iff, addrFits_iff, haddr, Nat.cast_le, lengthFits_iff,
      List.all_eq_true, wordFits_iff]
    constructor
    · rintro ⟨htop, haddrs, hdepth, hwords⟩
      exact ⟨fun top ht k hk => htop k hk top ht,
        fun n hn => ⟨fun k hk => haddrs k hk n hn, fun v hv => hwords v hv n hn⟩, hdepth⟩
    · rintro ⟨htop, hword, hdepth⟩
      exact ⟨fun k hk top ht => htop top ht k hk, fun k hk n hn => (hword n hn).1 k hk, hdepth,
        fun v hv n hn => (hword n hn).2 v hv⟩
  case within =>
    rcases lt_or_ge hi lo with hempty | hle
    · exact inspectMemWithin_of_fits (.inl hempty)
    · rcases lt_or_ge lo 0 with hneg | hpos
      · rw [inspectMem_of_neg hneg hle, inspectMemWithin_of_none (inspectMem_of_neg hneg hle)]
      · obtain ⟨htop, hword⟩ := h hi hle le_rfl
        exact inspectMemWithin_of_fits
          (.inr ⟨(addrFits_iff l hi).2 htop, (wordFits_iff_of_nonneg (hpos.trans hle)).2 hword⟩)
  case beyond =>
    refine if_neg fun hfits => ?_
    obtain ⟨haddr, hword⟩ := (rangeFits_iff.1 hfits).resolve_left (hlo.trans hhi).not_gt
    rcases h with ⟨top, htop, hlt⟩ | ⟨n, hn, hlt⟩
    · exact hlt.not_ge (hhi.trans ((addrFits_iff l hi).1 haddr top htop))
    · exact hlt.not_ge (hhi.trans ((wordFits_iff l hi).1 hword n hn).2)

end Sys2Proof.Proofs
end
